-- ==== Sys2Proof/Word.lean ====
section
/-!
DEFINITION. The word of the machine (00_scope.md R8).

A word is a signed integer; which integers are words depends on XLEN and is said by `Config.isWord`
(Machine/Words.lean). There is no bit field anywhere in this instruction set (R8), so a word is an `Int`
and not a bit vector; all arithmetic is on unbounded integers unless a rule says otherwise. The other files write the
type as `Int`, so that Lean's decision procedures for integers see it as it is.
-/

namespace Sys2Proof

/-- A machine word: the content of a cell, the pc, an operand, an ALU result (R8). -/
abbrev Word := Int

end Sys2Proof
end

