-- ==== Sys2Proof/Config.lean ====
section
/-!
DEFINITION. The parameters of the step relation (00_scope.md R7, 10_state.md R29).

The three parameters whose other values the spec gives a meaning are fields: XLEN (D1), OVERFLOW (D3) and
WT_MODE1 (D5). An instance carries its parameters (`State.config`, log entry 1), so that every statement is about
every legal choice of them. The parameters of R7 for which the spec gives only one meaning (MODE_DIGIT_2_9,
HIGH_DIGITS, NEG_HEADER, JUMP_EAGER) are coded by the rules themselves (log entry 6).
-/

namespace Sys2Proof

/-- The parameter OVERFLOW (R7, R102): what ADD and MUL do with a result that is not a word. -/
inductive OverflowRule where
  /-- Raise the fault Overflow and write nothing. -/
  | fault
  /-- Reduce the exact result modulo 2^XLEN into the range of words. -/
  | wrap
deriving DecidableEq, Repr

/-- The parameter WT_MODE1 (R7, R69): the result address of a write target whose mode digit is 1. -/
inductive WriteTargetRule where
  /-- The write target's own operand cell. -/
  | cell
  /-- The raw value, as if the digit were 0. -/
  | literal
deriving DecidableEq, Repr

/-- The parameters of one instance (R7). -/
structure Config where
  /-- XLEN, the width of a word in bits; `none` is the spec's INF, unbounded integers. -/
  xlen     : Option Nat
  /-- OVERFLOW. -/
  overflow : OverflowRule
  /-- WT_MODE1. -/
  wtMode1  : WriteTargetRule
deriving DecidableEq, Repr

/-- The spec's reference values: XLEN 64 (D1), OVERFLOW = FAULT (D3), WT_MODE1 = CELL (D5). -/
def Config.reference : Config := { xlen := some 64, overflow := .fault, wtMode1 := .cell }

end Sys2Proof
end

