-- ==== Sys2Proof/Machine/Words.lean ====
section
/-!
DEFINITION. The range of words and the memory bound that XLEN fixes (00_scope.md R7, R8), and the reduction
modulo 2^XLEN of OVERFLOW = WRAP (41_arithmetic.md R102).
-/

namespace Sys2Proof

/-- `2^(XLEN-1)`, or `none` for XLEN = INF. -/
def Config.half (c : Config) : Option Nat := c.xlen.map fun x => 2 ^ (x - 1)

/-- WMIN, the least word; `none` where there is no bound (R7). -/
def Config.wmin (c : Config) : Option Int := c.half.map fun h => -(h : Int)

/-- WMAX, the greatest word; `none` where there is no bound (R7). -/
def Config.wmax (c : Config) : Option Int := c.half.map fun h => (h : Int) - 1

/-- Whether the integer `v` is a word: `WMIN <= v <= WMAX` (R8). -/
def Config.isWord (c : Config) (v : Int) : Bool :=
  match c.half with
  | none => true
  | some h => decide (-(h : Int) ≤ v ∧ v ≤ (h : Int) - 1)

/-- Whether the parameters are legal: XLEN is an integer >= 32, or INF (R7, D1). -/
def Config.legal (c : Config) : Bool :=
  match c.xlen with
  | none => true
  | some x => decide (32 ≤ x)

/-- Whether `n` cells are a legal memory length: `n <= 2^(XLEN-1) - 4` (R7, R182, D2). -/
def Config.fitsLength (c : Config) (n : Nat) : Bool :=
  match c.half with
  | none => true
  | some h => decide (n + 4 ≤ h)

/-- The exact result reduced modulo 2^XLEN into [WMIN, WMAX] (R102); with XLEN = INF nothing is to reduce. -/
def Config.wrapWord (c : Config) (v : Int) : Int :=
  match c.xlen with
  | none => v
  | some x => v.bmod (2 ^ x)

end Sys2Proof
end

