-- ==== Sys2Proof/Syntax.lean ====
section
/-!
DEFINITION. The instructions as syntax (30_encoding.md R60, R62, R63).

One constructor per row of spec/opcode_table.json. An operand holds its raw value and its mode; the source position
of R74's Instruction record is `pc + 1 + i` and is computed from the pc of the instruction in flight (log entry 11).
-/

namespace Sys2Proof

/-- The two addressing modes (R64): mode digit 0 and mode digit 1. -/
inductive Mode where
  /-- Digit 0: the operand is an address to dereference. -/
  | position
  /-- Digit 1: the operand is a literal value. -/
  | immediate
deriving DecidableEq, Repr

/-- A source operand: its raw value and its mode (R64). -/
structure Operand where
  mode : Mode
  raw  : Int
deriving DecidableEq, Repr

/-- A write target: its raw value and its mode (R69). -/
structure Target where
  mode : Mode
  raw  : Int
deriving DecidableEq, Repr

/-- The nine operation kinds (R2, R62). -/
inductive Kind where
  | add | mul | inp | out | jt | jf | lt | eq | hlt
deriving DecidableEq, Repr

/-- An instruction: its operation kind with its full operand list (R63, R88). -/
inductive Instr where
  /-- ADD, opcode 1 (R100). -/
  | add (a b : Operand) (d : Target)
  /-- MUL, opcode 2 (R101). -/
  | mul (a b : Operand) (d : Target)
  /-- IN, opcode 3 (R110). -/
  | inp (d : Target)
  /-- OUT, opcode 4 (R111). -/
  | out (a : Operand)
  /-- JT, opcode 5 (R120). -/
  | jt (a b : Operand)
  /-- JF, opcode 6 (R121). -/
  | jf (a b : Operand)
  /-- LT, opcode 7 (R130). -/
  | lt (a b : Operand) (d : Target)
  /-- EQ, opcode 8 (R131). -/
  | eq (a b : Operand) (d : Target)
  /-- HLT, opcode 99 (R140). -/
  | hlt
deriving DecidableEq, Repr

/-- The operation kind of an instruction. -/
def Instr.kind : Instr → Kind
  | .add _ _ _ => .add
  | .mul _ _ _ => .mul
  | .inp _ => .inp
  | .out _ => .out
  | .jt _ _ => .jt
  | .jf _ _ => .jf
  | .lt _ _ _ => .lt
  | .eq _ _ _ => .eq
  | .hlt => .hlt

/-- The raw values of an instruction's operands, operand 0 first. -/
def Instr.raws : Instr → List Int
  | .add a b d | .mul a b d | .lt a b d | .eq a b d => [a.raw, b.raw, d.raw]
  | .inp d => [d.raw]
  | .out a => [a.raw]
  | .jt a b | .jf a b => [a.raw, b.raw]
  | .hlt => []

end Sys2Proof
end

