-- ==== Sys2Proof/WellFormed.lean ====
section
/-!
DEFINITION. Well-formed instructions: the raw value of every operand is a word (30_encoding.md R60: "`p_i` is the
raw value of operand `i`: any word"). The syntax rules out everything else (a third mode, a wrong operand count).
-/

namespace Sys2Proof

/-- Every raw value of the instruction is a word of the given parameters (R60, R8). -/
def Instr.wellFormed (c : Config) (i : Instr) : Bool := i.raws.all c.isWord

end Sys2Proof
end

