-- ==== Sys2Proof/Decode.lean ====
section
/-!
DEFINITION. The decoder and the encoder (30_encoding.md).

The encoding is decimal (R61): fields are decimal digits of the header, read with `div` and `mod` by powers of ten.
`decode` is R74 with its checks in the order they are made; it is a pure function of the memory's read port and the
pc (R75). Each rejection has its own name here; Machine/Ops.lean maps it to the fault the spec gives it.
-/

namespace Sys2Proof

/-! ### Decimal fields of the header -/

/-- `digit(x, k)`, the decimal digit of `x` with weight `10^k` (00_scope.md R10). -/
def digit (x k : Nat) : Nat := x / 10 ^ k % 10

/-- The opcode field, `v mod 100` (R61). -/
def opcodeOf (h : Nat) : Nat := h % 100

/-- The mode digit of operand `i`, `digit(v, i + 2)` (R61). -/
def modeDigit (h i : Nat) : Nat := digit h (i + 2)

/-- The mode a digit stands for: 0 position, 1 immediate, any other none (R64, R67). -/
def modeOf : Nat → Option Mode
  | 0 => some .position
  | 1 => some .immediate
  | _ => none

/-- The operation kind an opcode selects (R62); `none` for the 91 values R65 makes illegal. -/
def kindOf : Nat → Option Kind
  | 1 => some .add
  | 2 => some .mul
  | 3 => some .inp
  | 4 => some .out
  | 5 => some .jt
  | 6 => some .jf
  | 7 => some .lt
  | 8 => some .eq
  | 99 => some .hlt
  | _ => none

/-- The operand count of an operation kind (R60, R63). -/
def Kind.operandCount : Kind → Nat
  | .add | .mul | .lt | .eq => 3
  | .jt | .jf => 2
  | .inp | .out => 1
  | .hlt => 0

/-- The size of an instruction in cells, `1 + n` (R60, R70). -/
def Instr.size (i : Instr) : Nat := 1 + i.kind.operandCount

/-! ### The decoder -/

/-- Why a decode fails, by name (R74). -/
inductive DecodeError where
  /-- The header's address `a` is outside memory: OutOfBounds(a). -/
  | fetchOutOfBounds (a : Int)
  /-- The header `v` is negative (R66): InvalidInstruction(v). -/
  | negativeHeader (v : Int)
  /-- The opcode of the header `v` is none of the nine (R65): InvalidInstruction(v). -/
  | unknownOpcode (v : Int)
  /-- A used mode digit of the header `v` is not 0 or 1 (R67): InvalidInstruction(v). -/
  | illegalModeDigit (v : Int)
  /-- The operand cell at address `a` is outside memory: OutOfBounds(a). -/
  | operandOutOfBounds (a : Int)
deriving DecidableEq, Repr

/-- What the header alone says: the kind, and the modes of operands 0, 1, 2. The mode of an operand the kind does
not have is `position` and nothing reads it. -/
structure Header where
  kind  : Kind
  mode0 : Mode
  mode1 : Mode
  mode2 : Mode
deriving DecidableEq, Repr

/-- The mode of operand `i` of a kind: its digit is examined only for `i < n` (R61, R68). -/
def operandMode (k : Kind) (h i : Nat) : Option Mode :=
  if i < k.operandCount then modeOf (modeDigit h i) else some .position

/-- The header checks of R74, in order: negative (R66), unknown opcode (R65), illegal mode digit (R67). -/
def decodeHeader (v : Int) : Except DecodeError Header :=
  if v < 0 then .error (.negativeHeader v)
  else
    match kindOf (opcodeOf v.toNat) with
    | none => .error (.unknownOpcode v)
    | some k =>
      match operandMode k v.toNat 0, operandMode k v.toNat 1, operandMode k v.toNat 2 with
      | some m0, some m1, some m2 => .ok ⟨k, m0, m1, m2⟩
      | _, _, _ => .error (.illegalModeDigit v)

/-- The raw value of operand `i`: the cell at `pc + 1 + i` (R74). -/
def rawOperand (fetch : Int → Option Int) (pc : Int) (i : Nat) : Except DecodeError Int :=
  match fetch (pc + 1 + (i : Int)) with
  | none => .error (.operandOutOfBounds (pc + 1 + (i : Int)))
  | some r => .ok r

/-- Format F1 (R60): one operand cell. -/
def decodeF1 (fetch : Int → Option Int) (pc : Int) (mk : Int → Instr) : Except DecodeError Instr := do
  let r0 ← rawOperand fetch pc 0
  return mk r0

/-- Format F2 (R60): two operand cells, in ascending order. -/
def decodeF2 (fetch : Int → Option Int) (pc : Int) (mk : Int → Int → Instr) : Except DecodeError Instr := do
  let r0 ← rawOperand fetch pc 0
  let r1 ← rawOperand fetch pc 1
  return mk r0 r1

/-- Format F3 (R60): three operand cells, in ascending order. -/
def decodeF3 (fetch : Int → Option Int) (pc : Int) (mk : Int → Int → Int → Instr) :
    Except DecodeError Instr := do
  let r0 ← rawOperand fetch pc 0
  let r1 ← rawOperand fetch pc 1
  let r2 ← rawOperand fetch pc 2
  return mk r0 r1 r2

/-- The operand cells after a legal header (R74); a halt header reads none. -/
def decodeOperands (fetch : Int → Option Int) (pc : Int) (h : Header) : Except DecodeError Instr :=
  match h.kind with
  | .add => decodeF3 fetch pc fun x y z => .add ⟨h.mode0, x⟩ ⟨h.mode1, y⟩ ⟨h.mode2, z⟩
  | .mul => decodeF3 fetch pc fun x y z => .mul ⟨h.mode0, x⟩ ⟨h.mode1, y⟩ ⟨h.mode2, z⟩
  | .inp => decodeF1 fetch pc fun x => .inp ⟨h.mode0, x⟩
  | .out => decodeF1 fetch pc fun x => .out ⟨h.mode0, x⟩
  | .jt => decodeF2 fetch pc fun x y => .jt ⟨h.mode0, x⟩ ⟨h.mode1, y⟩
  | .jf => decodeF2 fetch pc fun x y => .jf ⟨h.mode0, x⟩ ⟨h.mode1, y⟩
  | .lt => decodeF3 fetch pc fun x y z => .lt ⟨h.mode0, x⟩ ⟨h.mode1, y⟩ ⟨h.mode2, z⟩
  | .eq => decodeF3 fetch pc fun x y z => .eq ⟨h.mode0, x⟩ ⟨h.mode1, y⟩ ⟨h.mode2, z⟩
  | .hlt => .ok .hlt

/-- `decode(memory, instruction_pointer) -> Instruction | DecodeError` (R74). `fetch a` is the cell at `a`, or
`none` where `a` is outside memory. -/
def decode (fetch : Int → Option Int) (pc : Int) : Except DecodeError Instr :=
  match fetch pc with
  | none => .error (.fetchOutOfBounds pc)
  | some v =>
    match decodeHeader v with
    | .error e => .error e
    | .ok h => decodeOperands fetch pc h

/-! ### The encoder -/

/-- The mode digit of a mode (R72's `ma`, `mb`, `md`). -/
def Mode.digit : Mode → Nat
  | .position => 0
  | .immediate => 1

/-- The opcode number of a kind (R62). -/
def Kind.opcode : Kind → Nat
  | .add => 1
  | .mul => 2
  | .inp => 3
  | .out => 4
  | .jt => 5
  | .jf => 6
  | .lt => 7
  | .eq => 8
  | .hlt => 99

/-- The canonical header, `opcode + 100*m0 + 1000*m1 + 10000*m2` (R72). -/
def headerWord (k : Kind) (m0 m1 m2 : Nat) : Int := ((k.opcode + 100 * m0 + 1000 * m1 + 10000 * m2 : Nat) : Int)

/-- The canonical header of an instruction (R72); unused digits are 0. -/
def Instr.header : Instr → Int
  | .add a b d => headerWord .add a.mode.digit b.mode.digit d.mode.digit
  | .mul a b d => headerWord .mul a.mode.digit b.mode.digit d.mode.digit
  | .inp d => headerWord .inp d.mode.digit 0 0
  | .out a => headerWord .out a.mode.digit 0 0
  | .jt a b => headerWord .jt a.mode.digit b.mode.digit 0
  | .jf a b => headerWord .jf a.mode.digit b.mode.digit 0
  | .lt a b d => headerWord .lt a.mode.digit b.mode.digit d.mode.digit
  | .eq a b d => headerWord .eq a.mode.digit b.mode.digit d.mode.digit
  | .hlt => headerWord .hlt 0 0 0

/-- The cells of an instruction at ascending addresses: header, then the raw values (R60, R72). -/
def encode (i : Instr) : List Int := i.header :: i.raws

/-! ### Cells written as one number -/

/-- Cell `k` of a number whose bits are cells of `width` bits, the first cell lowest, each in two's complement
(log entry 10). -/
def cellOfBits (width k w : Nat) : Int :=
  let u := w / 2 ^ (width * k) % 2 ^ width
  if u < 2 ^ (width - 1) then (u : Int) else (u : Int) - ((2 ^ width : Nat) : Int)

/-- The four cells of the longest instruction that the low `nbits` bits of `w` stand for, every bit above them 0. -/
def cellsOfBits (width nbits w : Nat) : List Int :=
  let u := w % 2 ^ nbits
  [cellOfBits width 0 u, cellOfBits width 1 u, cellOfBits width 2 u, cellOfBits width 3 u]

/-- The read port of a memory that holds exactly the listed cells, from address 0. -/
def fetchFrom (cells : List Int) (a : Int) : Option Int :=
  if a < 0 then none else cells[a.toNat]?

/-- The instruction the decoder reads from cells of 64 bits (the reference XLEN) given as one number. -/
def decodeTableWord (nbits w : Nat) : Option Instr :=
  match decode (fetchFrom (cellsOfBits 64 nbits w)) 0 with
  | .ok i => some i
  | .error _ => none

end Sys2Proof
end

