-- ==== Sys2Proof/Machine/State.lean ====
section
/-!
DEFINITION. The state of one machine instance (10_state.md R31: the tuple M, pc, in_q, out_q, run_state, err_kind,
err_info), the machine's faults as data, the stops of a step, and the state right after reset (R30).
-/

namespace Sys2Proof.Machine

/-- The memory image M (10_state.md R22): `len` cells of one word each, addressed `0 .. len - 1`.

`cells` is a sparse picture of them: pairs of address and word, addresses strictly rising, no pair holding 0. A cell
of `0 .. len - 1` that is not listed holds 0 (log entry 3). There is no byte view (20_memory.md R41). -/
structure Memory where
  /-- The spec's N (MEMLEN), fixed at reset. -/
  len   : Nat
  cells : List (Nat × Int)
deriving DecidableEq, Repr

/-- The run state (10_state.md R25). The pause after an output is none: the instance stays RUNNING. -/
inductive RunState where
  | running
  | halted
  | faulted
deriving DecidableEq, Repr

/-- The recorded kind of fault (10_state.md R26, 60_exceptions.md R150). -/
inductive ErrKind where
  | none
  | outOfBounds
  | invalidInstruction
  | inputStarved
  | overflow
deriving DecidableEq, Repr

/-- A fault of the machine with its payload (60_exceptions.md R150): what `raise E(info)` of 00_scope.md R11 names.
Raising one is a next state of the model, not a stop (R156). -/
inductive Error where
  /-- R151: an access to the address `a` outside `[0, N)`. -/
  | outOfBounds (a : Int)
  /-- R152: the header `v` is illegal. -/
  | invalidInstruction (v : Int)
  /-- R153: IN with an empty pending-input queue. -/
  | inputStarved
  /-- R154: the exact result of ADD or MUL is not a word. -/
  | overflow
deriving DecidableEq, Repr

/-- The complete state of one instance (10_state.md R31), and the parameters it was built with. -/
structure State where
  /-- The parameters of 00_scope.md R7: no state of the spec, carried here because a step has no other argument; no
  step changes it (log entry 1). -/
  config   : Config
  /-- M and N (R22). -/
  mem      : Memory
  /-- The program counter (R21). -/
  pc       : Int
  /-- in_q, front first (R23). -/
  inQ      : List Int
  /-- out_q, oldest first (R24). -/
  outQ     : List Int
  /-- run_state (R25). -/
  runState : RunState
  /-- err_kind (R26). -/
  errKind  : ErrKind
  /-- err_info (R26). -/
  errInfo  : Int
deriving DecidableEq, Repr

/-- Why no step exists (40_execution_cycle.md R80, "no step"). The machine's own faults are no stops: they are
recorded in the state (`Error`, R156). -/
inductive Fault where
  /-- Raised by `step` on a HALTED instance: the state is terminal (R25). Safe: the model stops where the spec gives
  no step. -/
  | alreadyHalted
  /-- Raised by `step` on a FAULTED instance: the state is terminal (R25, R158). Safe: the model stops where the
  spec gives no step. -/
  | alreadyFaulted
deriving DecidableEq, Repr

/-- What the model gives no meaning. -/
inductive Refusal where
  /-- An instruction of the table that has no meaning yet, by its mnemonic; raised by no arm of exec now. Safe: the
  model stops. -/
  | notModelled (mnemonic : String)
  /-- Raised by the reset operation on an image or inputs that are no legal argument (70_reset_and_hazards.md R182:
  "the model refuses it"). Safe: the model stops. -/
  | illegalReset
  /-- Raised by a run call whose input values are not all words: R23 says that the elements of in_q are words
  (10_state.md), and no rule says what such a call does (log entry 16). Safe: the model stops and the instance is
  as it was. -/
  | illegalInputs
deriving DecidableEq, Repr

/-- The machine right after reset (10_state.md R30) with the reference parameters, the empty image and no input: the
one legal reset that supplies nothing from outside (log entry 2). -/
def State.reset : State where
  config := Config.reference
  mem := { len := 0, cells := [] }
  pc := 0
  inQ := []
  outQ := []
  runState := .running
  errKind := .none
  errInfo := 0

end Sys2Proof.Machine
end

