-- ==== Sys2Proof/Machine/Ops.lean ====
section
/-!
DEFINITION. The named operations: memory, the channel's queues, the pc, taking a fault, completing an instruction,
fetching and decoding, and reset with an image.
-/

namespace Sys2Proof.Machine

/-! ### Memory (20_memory.md) -/

/-- `inb(a)` (00_scope.md R9): the address is one of `0 .. N-1`. -/
def Memory.inb (m : Memory) (a : Int) : Bool := decide (0 ≤ a) && decide (a < (m.len : Int))

/-- The word listed for an address; 0 for an address not listed (log entry 3). -/
def lookupCell : List (Nat × Int) → Nat → Int
  | [], _ => 0
  | (b, w) :: rest, a => if b = a then w else lookupCell rest a

/-- The list without the address `a`. -/
def eraseCell (a : Nat) : List (Nat × Int) → List (Nat × Int)
  | [] => []
  | (b, w) :: rest => if b = a then eraseCell a rest else (b, w) :: eraseCell a rest

/-- The pair put before the first greater address. -/
def insertCell (a : Nat) (v : Int) : List (Nat × Int) → List (Nat × Int)
  | [] => [(a, v)]
  | (b, w) :: rest => if a < b then (a, v) :: (b, w) :: rest else (b, w) :: insertCell a v rest

/-- The list with `v` at the address `a`, in canonical form: a 0 is not listed. -/
def storeCell (a : Nat) (v : Int) (l : List (Nat × Int)) : List (Nat × Int) :=
  if v = 0 then eraseCell a l else insertCell a v (eraseCell a l)

/-- The read port (R45): the content of cell `a`, or `none` where the address is outside memory. -/
def Memory.read (m : Memory) (a : Int) : Option Int :=
  if m.inb a then some (lookupCell m.cells a.toNat) else none

/-- `M[a] <- v`, for an address the caller has checked. -/
def Memory.write (m : Memory) (a v : Int) : Memory := { m with cells := storeCell a.toNat v m.cells }

/-- The memory that holds the listed words at `a`, `a + 1`, …, made long enough for them. Only loading uses it: no
instruction changes the length of memory (10_state.md R22). -/
def Memory.load : Memory → Nat → List Int → Memory
  | m, _, [] => m
  | m, a, v :: rest =>
    Memory.load { len := max m.len (a + 1), cells := storeCell a v m.cells } (a + 1) rest

/-- The memory image as a list of words becomes M, with N its length (R30, R183). -/
def Memory.ofImage (image : List Int) : Memory := Memory.load { len := 0, cells := [] } 0 image

/-- M as a list of words, cell 0 first (70_reset_and_hazards.md R184, the memory dump). -/
def Memory.dump (m : Memory) : List Int := (List.range m.len).map (lookupCell m.cells)

/-- The canonical form: addresses strictly rising, all inside memory, no 0 listed. -/
abbrev Memory.wf (m : Memory) : Prop :=
  m.cells.Pairwise (fun x y => x.1 < y.1) ∧ ∀ c ∈ m.cells, c.1 < m.len ∧ c.2 ≠ 0

/-- Every cell holds a word (R22). -/
abbrev Memory.holdsWords (c : Config) (m : Memory) : Prop := ∀ x ∈ m.cells, c.isWord x.2 = true

/-! ### Faults (60_exceptions.md) -/

/-- `code(E)` as an `err_kind` (R150). -/
def Error.kind : Error → ErrKind
  | .outOfBounds _ => .outOfBounds
  | .invalidInstruction _ => .invalidInstruction
  | .inputStarved => .inputStarved
  | .overflow => .overflow

/-- The word a fault records in `err_info` (R150, R26). -/
def Error.info : Error → Int
  | .outOfBounds a => a
  | .invalidInstruction v => v
  | .inputStarved => 0
  | .overflow => 0

/-- The numeric code of an `err_kind` (R26): a label. -/
def ErrKind.code : ErrKind → Nat
  | .none => 0
  | .outOfBounds => 1
  | .invalidInstruction => 2
  | .inputStarved => 3
  | .overflow => 4

/-- The numeric code of a `run_state` (R25): a label. -/
def RunState.code : RunState → Nat
  | .running => 0
  | .halted => 1
  | .faulted => 2

/-- Taking a fault (R156): the run state, the kind and the payload are written, everything else keeps the value it
had before the step. There is no return from it (R158). -/
def State.raise (s : State) (e : Error) : State :=
  { s with runState := .faulted, errKind := e.kind, errInfo := e.info }

/-- The fault the spec gives a failed decode (R74, R151, R152). -/
def faultOfDecode : DecodeError → Error
  | .fetchOutOfBounds a => .outOfBounds a
  | .negativeHeader v => .invalidInstruction v
  | .unknownOpcode v => .invalidInstruction v
  | .illegalModeDigit v => .invalidInstruction v
  | .operandOutOfBounds a => .outOfBounds a

/-! ### Reads and writes of the state -/

/-- `MemRead(a, 1)` (00_scope.md R9). -/
def State.memRead (s : State) (a : Int) : Except Error Int :=
  match s.mem.read a with
  | some v => .ok v
  | none => .error (.outOfBounds a)

/-- `M[a] <- v`, for an address the caller has checked. -/
def State.store (s : State) (a v : Int) : State := { s with mem := s.mem.write a v }

/-- `MemWrite(a, 1, v)` (00_scope.md R9, 40_execution_cycle.md R83). -/
def State.memWrite (s : State) (a v : Int) : Except Error State :=
  if s.mem.inb a then .ok (s.store a v) else .error (.outOfBounds a)

/-- `front(in_q)`, or InputStarved where the queue is empty (42_io.md R110). -/
def State.frontInput (s : State) : Except Error Int :=
  match s.inQ with
  | [] => .error .inputStarved
  | v :: _ => .ok v

/-- `pop(in_q)` (00_scope.md R11). -/
def State.popInput (s : State) : State := { s with inQ := s.inQ.tail }

/-- `append(out_q, v)` (00_scope.md R11). -/
def State.appendOutput (s : State) (v : Int) : State := { s with outQ := s.outQ ++ [v] }

/-- `pc <- t` (00_scope.md R11). -/
def State.setPc (s : State) (t : Int) : State := { s with pc := t }

/-- The sequential advance by a size in cells (40_execution_cycle.md R84). -/
def State.advance (s : State) (size : Nat) : State := s.setPc (s.pc + (size : Int))

/-- Entering HALTED (45_halt.md R140). -/
def State.halt (s : State) : State := { s with runState := .halted }

/-- Commit or discard (40_execution_cycle.md R85): an instruction that completes gives the state it made; one that
raises a fault leaves the state before it, with the fault taken. -/
def State.commit (s : State) (r : Except Error State) : Host.Outcome State Fault Refusal :=
  match r with
  | .ok t => .next t
  | .error e => .next (s.raise e)

/-! ### Fetch and reset -/

/-- Fetch and decode at the pc, on the current memory (R74, 20_memory.md R50). -/
def State.decodeNext (s : State) : Except DecodeError Instr := decode s.mem.read s.pc

/-- The legal arguments of reset (70_reset_and_hazards.md R182): legal parameters, every value a word, the length in
bounds. -/
def legalReset (c : Config) (image inputs : List Int) : Bool :=
  c.legal && image.all c.isWord && inputs.all c.isWord && c.fitsLength image.length

/-- `new(memory_image, initial_inputs)` (70_reset_and_hazards.md R180, 10_state.md R30); an illegal argument is
refused (R182). -/
def State.new (c : Config) (image inputs : List Int) : Host.Outcome State Fault Refusal :=
  if legalReset c image inputs then
    .next { State.reset with config := c, mem := Memory.ofImage image, inQ := inputs }
  else .refused .illegalReset

/-- The state with the cells of one instruction, written as one number, loaded where the next fetch reads them. -/
def State.loadAtPc (s : State) (nbits w : Nat) : State :=
  { s with mem := s.mem.load s.pc.toNat (cellsOfBits (s.config.xlen.getD 64) nbits w) }

end Sys2Proof.Machine
end

