-- ==== Sys2Proof/Machine/Operands.lean ====
section
/-!
DEFINITION. The operand forms: source operands in the two addressing modes (30_encoding.md R64, 40_execution_cycle.md
R82), the result address of a write target (30_encoding.md R69), and the result write (40_execution_cycle.md R83).
-/

namespace Sys2Proof.Machine

/-- `src(i)` (R82): an immediate is its raw value, a position operand is the cell it addresses. -/
def src (s : State) (o : Operand) : Except Error Int :=
  match o.mode with
  | .immediate => .ok o.raw
  | .position => s.memRead o.raw

/-- The source position of operand `i` of the instruction in flight, `pc + 1 + i` (R69, R74). -/
def operandCell (s : State) (i : Nat) : Int := s.pc + 1 + (i : Int)

/-- The result address of the write target that is operand `t` (R69), by the parameter WT_MODE1. -/
def dest (s : State) (t : Nat) (d : Target) : Int :=
  match d.mode with
  | .position => d.raw
  | .immediate =>
    match s.config.wtMode1 with
    | .cell => operandCell s t
    | .literal => d.raw

/-- The address an instruction writes its result to, for the kinds that write one (30_encoding.md R63). -/
def resultAddress (s : State) : Instr → Option Int
  | .add _ _ d => some (dest s 2 d)
  | .mul _ _ d => some (dest s 2 d)
  | .lt _ _ d => some (dest s 2 d)
  | .eq _ _ d => some (dest s 2 d)
  | .inp d => some (dest s 0 d)
  | .out _ => none
  | .jt _ _ => none
  | .jf _ _ => none
  | .hlt => none

/-- The common part of the F3 kinds (R82, R83, R84): both sources in order, the operation, the result write to
operand 2's result address, the pc past the four cells. -/
def binaryResult (op : Int → Int → Except Error Int) (a b : Operand) (d : Target) (s : State) :
    Except Error State := do
  let x ← src s a
  let y ← src s b
  let r ← op x y
  let t ← s.memWrite (dest s 2 d) r
  return t.advance 4

/-- The common part of the two jumps (43_jumps.md R122): both operands are resolved before the test; a taken jump
copies operand 1 to the pc unchecked. -/
def conditionalJump (taken : Int → Bool) (a b : Operand) (s : State) : Except Error State := do
  let c ← src s a
  let t ← src s b
  return if taken c then s.setPc t else s.advance 3

end Sys2Proof.Machine
end

