-- ==== Sys2Proof/Machine/Arith.lean ====
section
/-!
DEFINITION. The arithmetic instructions ADD and MUL (41_arithmetic.md R100 to R102).
-/

namespace Sys2Proof.Machine

/-- The exact result as a word (R102): itself where it is one, else by the parameter OVERFLOW a fault or the
reduction modulo 2^XLEN. -/
def narrow (c : Config) (exact : Int) : Except Error Int :=
  if c.isWord exact then .ok exact
  else
    match c.overflow with
    | .fault => .error .overflow
    | .wrap => .ok (c.wrapWord exact)

/-- ADD (R100). -/
def execAdd (a b : Operand) (d : Target) (s : State) : Host.Outcome State Fault Refusal :=
  s.commit (binaryResult (fun x y => narrow s.config (x + y)) a b d s)

/-- MUL (R101). -/
def execMul (a b : Operand) (d : Target) (s : State) : Host.Outcome State Fault Refusal :=
  s.commit (binaryResult (fun x y => narrow s.config (x * y)) a b d s)

end Sys2Proof.Machine
end

