-- ==== Sys2Proof/Machine/Flags.lean ====
section
/-!
DEFINITION. Conditions. The machine has no flags, condition codes or predicates (10_state.md R27). What stands in
their place is here: the comparisons of the ALU, whose result is the word 1 or the word 0 (44_compare.md R132), and
the zero test the two jumps use (43_jumps.md R122).
-/

namespace Sys2Proof.Machine

/-- The word 1 for true, the word 0 for false (R132). -/
def truthWord : Bool → Int
  | true => 1
  | false => 0

/-- Signed less-than of two words (R130, R132). -/
def lessThan (a b : Int) : Int := truthWord (decide (a < b))

/-- Equality of two words (R131, R132). -/
def equals (a b : Int) : Int := truthWord (decide (a = b))

/-- The zero test on a full word (R122). -/
def isZero (c : Int) : Bool := decide (c = 0)

end Sys2Proof.Machine
end

