-- ==== Sys2Proof/Machine/Compare.lean ====
section
/-!
DEFINITION. The comparisons LT and EQ (44_compare.md R130 to R132).
-/

namespace Sys2Proof.Machine

/-- LT (R130): 1 where operand 0 is less than operand 1 as signed integers, else 0. -/
def execLt (a b : Operand) (d : Target) (s : State) : Host.Outcome State Fault Refusal :=
  s.commit (binaryResult (fun x y => .ok (lessThan x y)) a b d s)

/-- EQ (R131): 1 where the operands are the same word, else 0. -/
def execEq (a b : Operand) (d : Target) (s : State) : Host.Outcome State Fault Refusal :=
  s.commit (binaryResult (fun x y => .ok (equals x y)) a b d s)

end Sys2Proof.Machine
end

