-- ==== Sys2Proof/Machine/Halt.lean ====
section
/-!
DEFINITION. The halt instruction HLT (45_halt.md R140): the HaltSignal arm of 40_execution_cycle.md R80.
-/

namespace Sys2Proof.Machine

/-- HLT (R140): the run state becomes HALTED; pc, memory and channel are unchanged; nothing is raised. -/
def execHlt (s : State) : Host.Outcome State Fault Refusal := s.commit (.ok s.halt)

end Sys2Proof.Machine
end

