-- ==== Sys2Proof/Machine/InOut.lean ====
section
/-!
DEFINITION. The input and output instructions IN and OUT (42_io.md R110, R111).
-/

namespace Sys2Proof.Machine

/-- IN (R110): the front of the queue goes to the result address and leaves the queue. The empty queue is checked
before the result address. -/
def readInput (d : Target) (s : State) : Except Error State := do
  let v ← s.frontInput
  let t ← s.memWrite (dest s 0 d) v
  return t.popInput.advance 2

/-- OUT (R111): the operand is appended to the output sequence. -/
def writeOutput (a : Operand) (s : State) : Except Error State := do
  let v ← src s a
  return (s.appendOutput v).advance 2

/-- IN (R110). -/
def execIn (d : Target) (s : State) : Host.Outcome State Fault Refusal := s.commit (readInput d s)

/-- OUT (R111). -/
def execOut (a : Operand) (s : State) : Host.Outcome State Fault Refusal := s.commit (writeOutput a s)

end Sys2Proof.Machine
end

