-- ==== Sys2Proof/Machine/Jump.lean ====
section
/-!
DEFINITION. The conditional jumps JT and JF (43_jumps.md R120 to R122).
-/

namespace Sys2Proof.Machine

/-- JT (R120): taken where the tested word is not 0. -/
def execJt (a b : Operand) (s : State) : Host.Outcome State Fault Refusal :=
  s.commit (conditionalJump (fun c => !isZero c) a b s)

/-- JF (R121): taken where the tested word is 0. -/
def execJf (a b : Operand) (s : State) : Host.Outcome State Fault Refusal :=
  s.commit (conditionalJump isZero a b s)

end Sys2Proof.Machine
end

