-- ==== Sys2Proof/Machine/Step.lean ====
section
/-!
DEFINITION. One step of an instance (40_execution_cycle.md R80), and the placing of an instruction where the next
step fetches.
-/

namespace Sys2Proof.Machine

/-- One step (R80): nothing on a terminal state; a failed decode takes its fault; a decoded instruction is executed. -/
def step (s : State) : Host.Outcome State Fault Refusal :=
  match s.runState with
  | .halted => .fault .alreadyHalted
  | .faulted => .fault .alreadyFaulted
  | .running =>
    match s.decodeNext with
    | .error e => .next (s.raise (faultOfDecode e))
    | .ok i => exec i s

/-- The state with one instruction, its cells written as one number, loaded at the pc; memory is made long enough for
the longest instruction (log entries 2 and 10). It stands for the loading of a program at reset. -/
def State.withFetchWord (s : State) (nbits w : Nat) : State := s.loadAtPc nbits w

end Sys2Proof.Machine
end

