-- ==== Sys2Proof/Machine/RunCalls.lean ====
section
/-!
DEFINITION. Step events and the host's operations on one instance (40_execution_cycle.md R89, 42_io.md R112,
70_reset_and_hazards.md R184 to R189). Reset itself is `State.new` in Machine/Ops.lean.

The loops of the spec have no step limit (R184, R193). Here a run call takes the greatest number of steps it may make,
and `none` says that it had not returned by then (log entry 8).
-/

namespace Sys2Proof.Machine

/-- What a step reports to the run loop (R89). -/
inductive Event where
  /-- None: an instruction completed and is not a write-output. -/
  | completed
  /-- Output(v): a write-output completed and appended `v`. -/
  | output (v : Int)
  /-- Halted: the halt signal was decoded. -/
  | halted
  /-- Fault(E, info). -/
  | fault (kind : ErrKind) (info : Int)
deriving DecidableEq, Repr

/-- The event of the step that led from a RUNNING state `before` to `after` (R89), read off the two states: only a
write-output lengthens the output sequence (log entry 9). -/
def eventOf (before after : State) : Event :=
  match after.runState with
  | .halted => .halted
  | .faulted => .fault after.errKind after.errInfo
  | .running =>
    match after.outQ.drop before.outQ.length with
    | v :: _ => .output v
    | [] => .completed

/-- What `run_to_completion` returns (R184). -/
inductive CompletionResult where
  | memory (image : List Int)
  | outputs (values : List Int)
  | machineError (kind : ErrKind) (info : Int)
deriving DecidableEq, Repr

/-- The answer of `run_to_completion` on a terminal instance; `none` while it is RUNNING (R184, R187, R188). -/
def completionResult (dumpMemory : Bool) (s : State) : Option CompletionResult :=
  match s.runState with
  | .running => none
  | .halted => some (if dumpMemory then .memory s.mem.dump else .outputs s.outQ)
  | .faulted => some (.machineError s.errKind s.errInfo)

/-- `run_to_completion(dump_memory)` (R184), within a number of steps: the result and the state it leaves. -/
def runToCompletion (dumpMemory : Bool) : Nat → State → Option (CompletionResult × State)
  | 0, s => (completionResult dumpMemory s).map fun r => (r, s)
  | k + 1, s =>
    match completionResult dumpMemory s with
    | some r => some (r, s)
    | none =>
      match step s with
      | .next t => runToCompletion dumpMemory k t
      | .fault _ => none
      | .refused _ => none

/-- What `run_until_output_or_halt` returns (R185). -/
inductive PauseResult where
  | output (v : Int)
  | halted (image outputs : List Int) (pc : Int)
  | machineError (kind : ErrKind) (info : Int)
  /-- The model's own answer (log entry 16): the call is not made, because its arguments are not legal. -/
  | refused (why : Refusal)
deriving DecidableEq, Repr

/-- The answer of `run_until_output_or_halt` on a terminal instance; `none` while it is RUNNING (R185, R187, R188). -/
def pauseResult (s : State) : Option PauseResult :=
  match s.runState with
  | .running => none
  | .halted => some (.halted s.mem.dump s.outQ s.pc)
  | .faulted => some (.machineError s.errKind s.errInfo)

/-- The loop of `run_until_output_or_halt` (R185), within a number of steps; it stops at an Output event (R112). -/
def runUntilOutput : Nat → State → Option (PauseResult × State)
  | 0, s => (pauseResult s).map fun r => (r, s)
  | k + 1, s =>
    match pauseResult s with
    | some r => some (r, s)
    | none =>
      match step s with
      | .next t =>
        match eventOf s t with
        | .output v => some (.output v, t)
        | .completed => runUntilOutput k t
        | .halted => runUntilOutput k t
        | .fault _ _ => runUntilOutput k t
      | .fault _ => none
      | .refused _ => none

/-- `append_inputs(values)` (R185, R196): behind whatever is pending, for values the caller has found to be words. -/
def State.appendInputs (s : State) (values : List Int) : State := { s with inQ := s.inQ ++ values }

/-- The legal `input_values` of a run call: words, since the elements of in_q are words (10_state.md R23). -/
def Config.legalInputs (c : Config) (inputs : List Int) : Bool := inputs.all c.isWord

/-- `run_until_output_or_halt(input_values)` (R185), within a number of steps. The inputs are appended first, on a
terminal instance too (R187, R188). That a call with a value that is no word is refused, with nothing appended and no
step made, is the model's choice (DESIGN CHOICE, log entry 16): R182 refuses such values at reset only. -/
def runUntilOutputOrHalt (steps : Nat) (inputs : List Int) (s : State) : Option (PauseResult × State) :=
  if Config.legalInputs s.config inputs then runUntilOutput steps (s.appendInputs inputs)
  else some (.refused .illegalInputs, s)

/-- Draining the output sequence between run calls (R186): all its elements, and the instance with it empty. -/
def State.drainOutput (s : State) : List Int × State := (s.outQ, { s with outQ := [] })

/-- Calls of `run_until_output_or_halt([])` one after another until one returns Halted: the returned outputs in order
and the final state (R112). `none` where a call does not return in time, faults, or the calls do not suffice. -/
def outputsUntilHalt (steps : Nat) : Nat → State → Option (List Int × State)
  | 0, _ => none
  | k + 1, s =>
    match runUntilOutputOrHalt steps [] s with
    | some (.output v, t) => (outputsUntilHalt steps k t).map fun r => (v :: r.1, r.2)
    | some (.halted _ _ _, t) => some ([], t)
    | some (.machineError _ _, _) => none
    | some (.refused _, _) => none
    | none => none

/-- What the host can do to or learn from a constructed instance (R189); discarding it needs no move. -/
inductive HostMove where
  /-- A further run call, which may append inputs (R184, R185). -/
  | runCall
  | readOutput
  | readInput
  | drainOutput
  /-- Reading M, the memory dump. -/
  | readMemory
  /-- Reading err_kind, err_info and the pc of a fault. -/
  | readFault
deriving DecidableEq, Repr

/-- The host table (R189) by run state: RUNNING is "between run calls". There is no move that writes M or the pc,
removes or reorders inputs, interrupts a call, restarts, or clears a fault. -/
def hostMay : RunState → HostMove → Bool
  | .running, .runCall => true
  | .running, .readOutput => true
  | .running, .readInput => true
  | .running, .drainOutput => true
  | .running, .readMemory => false
  | .running, .readFault => false
  | .halted, .readMemory => true
  | .halted, .readOutput => true
  | .halted, .drainOutput => true
  | .halted, .readInput => false
  | .halted, .runCall => false
  | .halted, .readFault => false
  | .faulted, .readFault => true
  | .faulted, .runCall => false
  | .faulted, .readOutput => false
  | .faulted, .readInput => false
  | .faulted, .drainOutput => false
  | .faulted, .readMemory => false

end Sys2Proof.Machine
end

