-- ==== Sys2Proof/Machine/Network.lean ====
section
/-!
DEFINITION. Several instances (60_exceptions.md R163, R164; 20_memory.md R51). A network is a list of instances that
share nothing; the host moves words between their channels.
-/

namespace Sys2Proof.Machine

/-- One step of instance `j` (R163); `none` where there is no such instance or it has no step. -/
def stepInstance (net : List State) (j : Nat) : Option (List State) :=
  match net[j]? with
  | none => none
  | some s =>
    match step s with
    | .next t => some (net.set j t)
    | .fault _ => none
    | .refused _ => none

/-- The feedback network (R164), within a number of calls of a number of steps each: call instance `j` with the
inputs, pass an output to the next instance around the ring, stop when a call returns Halted, an error, or a refusal of its inputs
(log entries 15 and 16). -/
def feedback (steps : Nat) : Nat → List State → Nat → List Int → Option (PauseResult × List State)
  | 0, _, _, _ => none
  | k + 1, net, j, inputs =>
    match net[j]? with
    | none => none
    | some s =>
      match runUntilOutputOrHalt steps inputs s with
      | none => none
      | some (.output v, t) => feedback steps k (net.set j t) ((j + 1) % net.length) [v]
      | some (.halted m o p, t) => some (.halted m o p, net.set j t)
      | some (.machineError e w, t) => some (.machineError e w, net.set j t)
      | some (.refused r, t) => some (.refused r, net.set j t)

/-- One instance of the non-cycling form (R164): reset with `[phase, signal]`, run once to completion, its single
output is the next signal. -/
def amplify (c : Config) (image : List Int) (steps : Nat) (phase signal : Int) : Option Int :=
  match State.new c image [phase, signal] with
  | .next s =>
    match runToCompletion false steps s with
    | some (.outputs [v], _) => some v
    | _ => none
  | _ => none

/-- The non-cycling chain (R164): one fresh instance per phase, in sequence. -/
def chain (c : Config) (image : List Int) (steps : Nat) : List Int → Int → Option Int
  | [], signal => some signal
  | phase :: rest, signal =>
    match amplify c image steps phase signal with
    | some v => chain c image steps rest v
    | none => none

end Sys2Proof.Machine
end

