-- ==== Sys2Proof/Safety.lean ====
section
/-!
DEFINITION. What claims are about: the invariant of an instance, reachability, the two ends of a run
(70_reset_and_hazards.md R190), and the unbounded-integer machine of 92_eei_decisions.md's note on D3.
-/

namespace Sys2Proof.Machine

/-- The invariant of an instance: what reset establishes (70_reset_and_hazards.md R182, 10_state.md R30) and every
step keeps. -/
structure State.Inv (s : State) : Prop where
  /-- XLEN is INF or at least 32 (R7). -/
  legal : s.config.legal = true
  /-- The memory's canonical form. -/
  memForm : s.mem.wf
  /-- N is within its bound (R7, R182). -/
  memLength : s.config.fitsLength s.mem.len = true
  /-- Every cell holds a word (R22). -/
  memWords : s.mem.holdsWords s.config
  /-- The pc is a word (R21). -/
  pcWord : s.config.isWord s.pc = true
  /-- The pending inputs are words (R23). -/
  inWords : ∀ v ∈ s.inQ, s.config.isWord v = true
  /-- The outputs are words (R24). -/
  outWords : ∀ v ∈ s.outQ, s.config.isWord v = true
  /-- err_info is a word (R26). -/
  infoWord : s.config.isWord s.errInfo = true
  /-- While run_state is not FAULTED, err_kind and err_info hold NONE and 0 (R26). -/
  noFault : s.runState ≠ .faulted → s.errKind = .none ∧ s.errInfo = 0
  /-- A FAULTED instance has a recorded kind (R156). -/
  faultKind : s.runState = .faulted → s.errKind ≠ .none
  /-- InputStarved and Overflow carry the word 0 (R153, R154). -/
  plainInfo : s.errKind = .inputStarved ∨ s.errKind = .overflow → s.errInfo = 0
  /-- Overflow exists only under OVERFLOW = FAULT and finite XLEN (R154). -/
  overflowOnly : s.errKind = .overflow → s.config.overflow = .fault ∧ s.config.xlen ≠ none

/-- `t` is reached from `s` by steps. -/
inductive Reaches : State → State → Prop where
  | refl (s : State) : Reaches s s
  | tail {s t u : State} (h : Reaches s t) (hs : step t = .next u) : Reaches s u

/-- The only successful end of a run (R190). -/
def State.succeeded (s : State) : Bool := decide (s.runState = .halted)

/-- The end of a run that is never a success (R190). -/
def State.failed (s : State) : Bool := decide (s.runState = .faulted)

/-- Between `s` and `t` the one cell `a` took the word `v`; every other address reads as before, and N is the same. -/
structure StoredAt (s t : State) (a v : Int) : Prop where
  cell   : t.mem.read a = some v
  others : ∀ b : Int, b ≠ a → t.mem.read b = s.mem.read b
  len    : t.mem.len = s.mem.len

/-- The status, the recorded fault and the parameters are the same in both states: no fault was taken. -/
structure SameStatus (s t : State) : Prop where
  config   : t.config = s.config
  runState : t.runState = s.runState
  errKind  : t.errKind = s.errKind
  errInfo  : t.errInfo = s.errInfo

/-- `t` is `s` with the fault `e` taken and nothing else changed (60_exceptions.md R156). -/
structure FaultedFrom (s t : State) (e : Error) : Prop where
  runState : t.runState = .faulted
  errKind  : t.errKind = e.kind
  errInfo  : t.errInfo = e.info
  mem      : t.mem = s.mem
  pc       : t.pc = s.pc
  inQ      : t.inQ = s.inQ
  outQ     : t.outQ = s.outQ
  config   : t.config = s.config

/-- Executing `i` in `s` takes the fault `e` and has no other effect (40_execution_cycle.md R85). -/
def Faults (i : Instr) (s : State) (e : Error) : Prop := ∃ t, exec i s = .next t ∧ FaultedFrom s t e

/-- A step of `s` takes the fault `e` and has no other effect. -/
def StepFaults (s : State) (e : Error) : Prop := ∃ t, step s = .next t ∧ FaultedFrom s t e

/-- The same instance with XLEN = INF: the machine the source literally describes (92_eei_decisions.md, Notes). -/
def State.unbounded (s : State) : State := { s with config := { s.config with xlen := none } }

end Sys2Proof.Machine
end

