-- ==== Sys2Proof/Certificates/Slice0/Obligations.lean ====
section
/-!
DEFINITION. The statements for the provers. Each docstring names the rule or section of spec/ it formalises. Statements
are about every state, every legal or illegal parameter choice unless a premise says otherwise, and every operand.
-/

open Sys2Proof Sys2Proof.Machine

/-! ### Encoding and decoding (30_encoding.md) -/

/-- Decoding the cells of any instruction, at any address, gives it back: no digit or operand cell of an encoding is
dropped (30_encoding.md sections 1, 5 and 6). Every operand at every value, well-formed or not. -/
def Obligations.EncodedInstructionDecodesBack : Prop :=
  ∀ (i : Instr) (fetch : Int → Option Int) (pc : Int),
    (∀ k : Nat, k < i.size → fetch (pc + (k : Int)) = (encode i)[k]?) → decode fetch pc = .ok i

/-- The header's fields are its decimal digits (30_encoding.md section 2): opcode `v mod 100`, then the mode digits of
operands 0, 1, 2 at weights 100, 1000, 10000, each examined only for an operand the kind has. That a negative header or
a used digit 2 to 9 gives no header, and that higher digits do not matter, are the spec's own decisions D8, D6 and D7
(log entry 6). -/
def Obligations.HeaderFieldsAreDecimalDigits : Prop :=
  ∀ (v : Int) (h : Header), decodeHeader v = .ok h ↔
    0 ≤ v ∧ kindOf (v.toNat % 100) = some h.kind ∧
      (if 0 < h.kind.operandCount then modeOf (v.toNat / 100 % 10) = some h.mode0 else h.mode0 = .position) ∧
      (if 1 < h.kind.operandCount then modeOf (v.toNat / 1000 % 10) = some h.mode1 else h.mode1 = .position) ∧
      (if 2 < h.kind.operandCount then modeOf (v.toNat / 10000 % 10) = some h.mode2 else h.mode2 = .position)

/-- An opcode field outside the nine known values faults with the whole header word, whatever the operand cells
(30_encoding.md R65). -/
def Obligations.UnknownOpcodeIsInvalidInstruction : Prop :=
  ∀ (s : State) (v : Int), s.runState = .running → s.mem.read s.pc = some v →
    v % 100 ∉ [1, 2, 3, 4, 5, 6, 7, 8, 99] → StepFaults s (.invalidInstruction v)

/-- A negative header faults, and so does a header with a used mode digit 2 to 9, whatever the operand cells. The
spec's own decisions D8 and D6 (30_encoding.md section 4; log entry 6). -/
def Obligations.NegativeHeaderAndBadModeFault : Prop :=
  ∀ (s : State) (v : Int), s.runState = .running → s.mem.read s.pc = some v →
    (v < 0 → StepFaults s (.invalidInstruction v)) ∧
    (0 ≤ v → ∀ (k : Kind) (i : Nat), kindOf (v.toNat % 100) = some k → i < k.operandCount →
      2 ≤ v.toNat / 10 ^ (i + 2) % 10 → StepFaults s (.invalidInstruction v))

/-- Two headers that agree in the digits a kind uses decode alike: the digits above are not examined, halt's included.
The spec's own decisions D7 and D21 (30_encoding.md section 4; log entry 6). -/
def Obligations.UnusedHighDigitsAreIgnored : Prop :=
  ∀ (fetch fetch' : Int → Option Int) (pc v v' : Int) (k : Kind) (i : Instr),
    fetch pc = some v → fetch' pc = some v' → 0 ≤ v → 0 ≤ v' → kindOf (v.toNat % 100) = some k →
    v.toNat % 10 ^ (k.operandCount + 2) = v'.toNat % 10 ^ (k.operandCount + 2) →
    (∀ a : Int, a ≠ pc → fetch' a = fetch a) → decode fetch pc = .ok i → decode fetch' pc = .ok i

/-- The decoder's answer depends on the header cell and the operand cells of its kind only (30_encoding.md section 5,
decoder purity). -/
def Obligations.DecoderReadsOnlyItsCells : Prop :=
  ∀ (fetch fetch' : Int → Option Int) (pc : Int), fetch' pc = fetch pc →
    (∀ (v : Int) (k : Kind), fetch pc = some v → kindOf (v.toNat % 100) = some k →
      ∀ j : Nat, j < k.operandCount → fetch' (pc + 1 + (j : Int)) = fetch (pc + 1 + (j : Int))) →
    decode fetch' pc = decode fetch pc

/-- A few headers of 95_test_vectors.md section 2.1 with operand cells decode to the instructions named there. The
opcodes of 106 (JF) and 10107 (LT) are the spec's own decision D4, and that 11199 halts is its decision D21 (log
entry 6). -/
def Obligations.SampleHeadersDecode : Prop :=
  decode (fetchFrom [1002, 4, 3, 4, 33]) 0 = .ok (.mul ⟨.position, 4⟩ ⟨.immediate, 3⟩ ⟨.position, 4⟩) ∧
  decode (fetchFrom [11101, 2, 3, 0]) 0 = .ok (.add ⟨.immediate, 2⟩ ⟨.immediate, 3⟩ ⟨.immediate, 0⟩) ∧
  decode (fetchFrom [103, 3]) 0 = .ok (.inp ⟨.immediate, 3⟩) ∧
  decode (fetchFrom [104, 77]) 0 = .ok (.out ⟨.immediate, 77⟩) ∧
  decode (fetchFrom [1005, 9, 4]) 0 = .ok (.jt ⟨.position, 9⟩ ⟨.immediate, 4⟩) ∧
  decode (fetchFrom [106, 1, 50]) 0 = .ok (.jf ⟨.immediate, 1⟩ ⟨.position, 50⟩) ∧
  decode (fetchFrom [10107, 1, 2, 0]) 0 = .ok (.lt ⟨.immediate, 1⟩ ⟨.position, 2⟩ ⟨.immediate, 0⟩) ∧
  decode (fetchFrom [8, 9, 10, 9]) 0 = .ok (.eq ⟨.position, 9⟩ ⟨.position, 10⟩ ⟨.position, 9⟩) ∧
  decode (fetchFrom [11199]) 0 = .ok .hlt

/-! ### Operands and memory (20_memory.md, 30_encoding.md) -/

/-- A source operand (30_encoding.md R64): position mode dereferences the raw value and faults with it where it is out
of bounds; immediate mode is the raw value itself, whatever memory holds. -/
def Obligations.SourceOperandModes : Prop :=
  ∀ (s : State) (r : Int), src s ⟨.immediate, r⟩ = .ok r ∧
    (∀ v : Int, s.mem.read r = some v → src s ⟨.position, r⟩ = .ok v) ∧
    ((r < 0 ∨ (s.mem.len : Int) ≤ r) → src s ⟨.position, r⟩ = .error (.outOfBounds r))

/-- The result address of a write target that is operand `t`: the raw value with mode digit 0; with mode digit 1 its
own cell or the raw value, by WT_MODE1. The spec's decision D5 and its alternative (30_encoding.md section 3). -/
def Obligations.WriteTargetAddress : Prop :=
  ∀ (s : State) (t : Nat) (r : Int), dest s t ⟨.position, r⟩ = r ∧
    (s.config.wtMode1 = .cell → dest s t ⟨.immediate, r⟩ = s.pc + 1 + (t : Int)) ∧
    (s.config.wtMode1 = .literal → dest s t ⟨.immediate, r⟩ = r)

/-- Every access is bounds-checked, fetch and operand cells included (20_memory.md section 5): outside `[0, N)` it raises
OutOfBounds with the address and is not made; inside it is made. That the first of several operand cells outside memory
is the one reported goes back to the spec's own decision D12 (log entry 6). -/
def Obligations.OutOfBoundsAccessesFault : Prop :=
  ∀ s : State,
    (∀ a v : Int, (a < 0 ∨ (s.mem.len : Int) ≤ a) →
      s.memRead a = .error (.outOfBounds a) ∧ s.memWrite a v = .error (.outOfBounds a)) ∧
    (∀ a v : Int, 0 ≤ a → a < (s.mem.len : Int) →
      (∃ w, s.memRead a = .ok w) ∧ s.memWrite a v = .ok (s.store a v)) ∧
    (s.runState = .running → (s.pc < 0 ∨ (s.mem.len : Int) ≤ s.pc) → StepFaults s (.outOfBounds s.pc)) ∧
    (s.runState = .running → ∀ (v : Int) (h : Header) (j : Nat), s.mem.read s.pc = some v → decodeHeader v = .ok h →
      j < h.kind.operandCount → s.pc + (j : Int) < (s.mem.len : Int) → (s.mem.len : Int) ≤ s.pc + 1 + (j : Int) →
      StepFaults s (.outOfBounds (s.pc + 1 + (j : Int))))

/-- A read of a cell gives the word last written to it, and a write changes no other cell (20_memory.md section 4). -/
def Obligations.ReadReturnsLastWrite : Prop :=
  ∀ (s t : State) (a v : Int), s.memWrite a v = .ok t →
    t.memRead a = .ok v ∧ ∀ b : Int, b ≠ a → t.memRead b = s.memRead b

/-- A store is seen by every later fetch and operand-cell read at once, at whatever pc the decoder is applied
(20_memory.md R50). -/
def Obligations.StoreIsSeenByEveryLaterFetch : Prop :=
  ∀ (s t : State) (a v : Int), s.memWrite a v = .ok t →
    ∀ p : Int, decode t.mem.read p = decode (fun b => if b = a then some v else s.mem.read b) p

/-- Two memories in canonical form with the same length that read alike are the same data: the model's own choice of
representation (log entry 3), for 20_memory.md section 1. -/
def Obligations.EqualReadsAreEqualMemories : Prop :=
  ∀ m m' : Memory, m.wf → m'.wf → m.len = m'.len → (∀ a : Int, m.read a = m'.read a) → m = m'

/-! ### The step (40_execution_cycle.md) -/

/-- On a RUNNING instance a step is exec of the decoded instruction, with nothing added, and a failed decode takes its
fault (40_execution_cycle.md section 1). -/
def Obligations.StepRunsDecodedInstruction : Prop :=
  ∀ s : State, s.runState = .running →
    (∀ i : Instr, s.decodeNext = .ok i → step s = exec i s) ∧
    (∀ e : DecodeError, s.decodeNext = .error e → step s = .next (s.raise (faultOfDecode e)))

/-- Where memory holds the cells of an instruction at the pc, the step is exec of that instruction
(40_execution_cycle.md section 1, 30_encoding.md section 6). -/
def Obligations.StoredEncodingRuns : Prop :=
  ∀ (s : State) (i : Instr), s.runState = .running →
    (∀ k : Nat, k < i.size → s.mem.read (s.pc + (k : Int)) = (encode i)[k]?) → step s = exec i s

/-- exec answers a next state for every instruction in every state, and so does a step of a RUNNING instance: the step
is total there (40_execution_cycle.md section 1). -/
def Obligations.RunningInstanceAlwaysSteps : Prop :=
  (∀ (i : Instr) (s : State), ∃ t, exec i s = .next t) ∧
  ∀ s : State, s.runState = .running → ∃ t, step s = .next t

/-- FAULTED and HALTED are terminal (10_state.md section 5, 60_exceptions.md section 5): no step exists, and nothing
reached from them differs from them, so the recorded fault never changes. That step then answers the host's fault outcome,
by name, is the model's reading of "no step" (DEDUCED, log entry 4). -/
def Obligations.TerminalStatesHaveNoStep : Prop :=
  ∀ s : State, (s.runState = .faulted → step s = .fault .alreadyFaulted) ∧
    (s.runState = .halted → step s = .fault .alreadyHalted) ∧
    (s.runState ≠ .running → ∀ t, Reaches s t → t = s)

/-- What every step reports (40_execution_cycle.md R89): the fault it took, halted for the halt signal, the word
appended by a completed write-output, or none for any other completed instruction. -/
def Obligations.EventReportsTheStep : Prop :=
  ∀ s t : State, step s = .next t →
    match s.decodeNext with
    | .error e => eventOf s t = .fault (faultOfDecode e).kind (faultOfDecode e).info
    | .ok .hlt => eventOf s t = .halted
    | .ok (.out a) =>
      (∃ v, src s a = .ok v ∧ t.outQ = s.outQ ++ [v] ∧ eventOf s t = .output v) ∨
      (∃ e, src s a = .error e ∧ eventOf s t = .fault e.kind e.info)
    | .ok i => (SameStatus s t ∧ eventOf s t = .completed) ∨
      (∃ e, FaultedFrom s t e ∧ Faults i s e ∧ eventOf s t = .fault e.kind e.info)

/-- The pc of a completed instruction (40_execution_cycle.md R84): past its cells, or operand 1 of a taken jump, or
unchanged by halt; a sequential advance ends at N at most, and from N the next fetch raises OutOfBounds(N). A fault
leaves the pc. The pc after halt and after a fault go back to the spec's own decisions D15 and D11 (log entry 6). -/
def Obligations.SequentialAdvance : Prop :=
  ∀ (s t : State) (i : Instr), step s = .next t → s.decodeNext = .ok i →
    (t.runState = .faulted → t.pc = s.pc) ∧
    (t.runState ≠ .faulted →
      (match i with
        | .jt a b => ∃ c p, src s a = .ok c ∧ src s b = .ok p ∧ t.pc = if c ≠ 0 then p else s.pc + (i.size : Int)
        | .jf a b => ∃ c p, src s a = .ok c ∧ src s b = .ok p ∧ t.pc = if c = 0 then p else s.pc + (i.size : Int)
        | .hlt => t.pc = s.pc
        | _ => t.pc = s.pc + (i.size : Int)) ∧
      s.pc + (i.size : Int) ≤ (s.mem.len : Int) ∧
      (t.runState = .running → t.pc = (s.mem.len : Int) → StepFaults t (.outOfBounds (s.mem.len : Int))))

/-! ### The instructions (41_arithmetic.md to 45_halt.md) -/

/-- ADD and MUL whole (41_arithmetic.md R100, R101): the encoding; the exact result stored at the result address, pc
past four cells, nothing else changed; and the faults in their order. Overflow and the order among faults go back to
the spec's own decisions D3 and D12 (log entry 6). -/
def Obligations.ArithmeticInstructions : Prop :=
  ∀ (mk : Operand → Operand → Target → Instr) (op : Int → Int → Int) (code : Int),
    (mk = Instr.add ∧ op = (fun x y => x + y) ∧ code = 1) ∨ (mk = Instr.mul ∧ op = (fun x y => x * y) ∧ code = 2) →
    ∀ (a b : Operand) (d : Target) (s : State),
      encode (mk a b d) = [code + 100 * (a.mode.digit : Int) + 1000 * (b.mode.digit : Int) +
        10000 * (d.mode.digit : Int), a.raw, b.raw, d.raw] ∧
      (∀ x y : Int, src s a = .ok x → src s b = .ok y → s.config.isWord (op x y) = true →
        s.mem.inb (dest s 2 d) = true →
        ∃ t, exec (mk a b d) s = .next t ∧ StoredAt s t (dest s 2 d) (op x y) ∧ t.pc = s.pc + 4 ∧ t.inQ = s.inQ ∧
          t.outQ = s.outQ ∧ SameStatus s t) ∧
      (a.mode = .position → s.mem.inb a.raw = false → Faults (mk a b d) s (.outOfBounds a.raw)) ∧
      (∀ x : Int, src s a = .ok x → b.mode = .position → s.mem.inb b.raw = false →
        Faults (mk a b d) s (.outOfBounds b.raw)) ∧
      (∀ x y : Int, src s a = .ok x → src s b = .ok y → s.config.isWord (op x y) = false →
        s.config.overflow = .fault → Faults (mk a b d) s .overflow) ∧
      (∀ x y : Int, src s a = .ok x → src s b = .ok y → s.config.isWord (op x y) = true →
        s.mem.inb (dest s 2 d) = false → Faults (mk a b d) s (.outOfBounds (dest s 2 d)))

/-- ADD and MUL under OVERFLOW = WRAP: a result that is no word is stored reduced modulo 2^XLEN into the range of words,
and no Overflow is raised. The spec's alternative to its decision D3 (41_arithmetic.md section 1). -/
def Obligations.WrappedArithmetic : Prop :=
  ∀ (mk : Operand → Operand → Target → Instr) (op : Int → Int → Int),
    (mk = Instr.add ∧ op = (fun x y => x + y)) ∨ (mk = Instr.mul ∧ op = (fun x y => x * y)) →
    ∀ (a b : Operand) (d : Target) (s : State) (width : Nat) (x y : Int), s.config.overflow = .wrap →
      s.config.legal = true → s.config.xlen = some width → src s a = .ok x → src s b = .ok y →
      (s.mem.inb (dest s 2 d) = true →
        ∃ t r, exec (mk a b d) s = .next t ∧ s.config.isWord r = true ∧ (2 ^ width : Int) ∣ op x y - r ∧
          StoredAt s t (dest s 2 d) r ∧ t.pc = s.pc + 4 ∧ t.inQ = s.inQ ∧ t.outQ = s.outQ ∧ SameStatus s t) ∧
      (s.mem.inb (dest s 2 d) = false → Faults (mk a b d) s (.outOfBounds (dest s 2 d)))

/-- Exchanging the two sources of ADD or MUL, with their modes, changes nothing where the instruction completes
(41_arithmetic.md section 1). -/
def Obligations.ArithmeticCommutes : Prop :=
  ∀ (a b : Operand) (d : Target) (s t : State), t.runState ≠ .faulted →
    (exec (.add a b d) s = .next t ↔ exec (.add b a d) s = .next t) ∧
    (exec (.mul a b d) s = .next t ↔ exec (.mul b a d) s = .next t)

/-- Overflow is raised by ADD and MUL alone, only where the exact result is no word, under OVERFLOW = FAULT and a finite
XLEN, and carries 0: the spec's own decision D3 (60_exceptions.md section 1; log entry 6). -/
def Obligations.OverflowOnlyFromArithmetic : Prop :=
  ∀ s t : State, s.Inv → step s = .next t → t.errKind = .overflow →
    s.config.overflow = .fault ∧ s.config.xlen ≠ none ∧ t.errInfo = 0 ∧ t.runState = .faulted ∧
      ∃ a b d x y, src s a = .ok x ∧ src s b = .ok y ∧
        ((s.decodeNext = .ok (.add a b d) ∧ s.config.isWord (x + y) = false) ∨
         (s.decodeNext = .ok (.mul a b d) ∧ s.config.isWord (x * y) = false))

/-- LT and EQ whole (44_compare.md sections 2 and 3): the encoding; the word 1 or 0 stored at the result address, pc past
four cells, nothing else changed; and the faults in their order. The opcode number 7 of LT is the spec's own decision D4
(log entry 6). -/
def Obligations.ComparisonInstructions : Prop :=
  ∀ (mk : Operand → Operand → Target → Instr) (holds : Int → Int → Prop) (code : Int),
    (mk = Instr.lt ∧ holds = (fun x y => x < y) ∧ code = 7) ∨ (mk = Instr.eq ∧ holds = (fun x y => x = y) ∧ code = 8) →
    ∀ (a b : Operand) (d : Target) (s : State),
      encode (mk a b d) = [code + 100 * (a.mode.digit : Int) + 1000 * (b.mode.digit : Int) +
        10000 * (d.mode.digit : Int), a.raw, b.raw, d.raw] ∧
      (∀ x y : Int, src s a = .ok x → src s b = .ok y → s.mem.inb (dest s 2 d) = true →
        ∃ t r, exec (mk a b d) s = .next t ∧ (holds x y → r = 1) ∧ (¬holds x y → r = 0) ∧
          StoredAt s t (dest s 2 d) r ∧ t.pc = s.pc + 4 ∧ t.inQ = s.inQ ∧ t.outQ = s.outQ ∧ SameStatus s t) ∧
      (a.mode = .position → s.mem.inb a.raw = false → Faults (mk a b d) s (.outOfBounds a.raw)) ∧
      (∀ x : Int, src s a = .ok x → b.mode = .position → s.mem.inb b.raw = false →
        Faults (mk a b d) s (.outOfBounds b.raw)) ∧
      (∀ x y : Int, src s a = .ok x → src s b = .ok y → s.mem.inb (dest s 2 d) = false →
        Faults (mk a b d) s (.outOfBounds (dest s 2 d)))

/-- The laws of the comparisons (44_compare.md R132): the result is 1 or 0 and is the signed order or equality of the
words; exactly one of `a < b`, `a = b`, `b < a` holds; LT and EQ never raise Overflow and write their result to memory,
the status staying as it was. -/
def Obligations.ComparisonLaws : Prop :=
  (∀ x y : Int, (lessThan x y = 1 ∧ x < y) ∨ (lessThan x y = 0 ∧ y ≤ x)) ∧
  (∀ x y : Int, (equals x y = 1 ∧ x = y) ∨ (equals x y = 0 ∧ x ≠ y)) ∧
  (∀ x y : Int, lessThan x y + equals x y + lessThan y x = 1) ∧
  ∀ (a b : Operand) (d : Target) (s t : State), exec (.lt a b d) s = .next t ∨ exec (.eq a b d) s = .next t →
    ¬FaultedFrom s t .overflow ∧
    (s.runState = .running → t.runState = .running →
      SameStatus s t ∧ (t.mem.read (dest s 2 d) = some 1 ∨ t.mem.read (dest s 2 d) = some 0))

/-- IN: the encoding; the front of in_q stored at the result address and removed, pc past two cells, nothing else
changed; the empty queue checked before the address, and on a bad address the front stays (42_io.md section 1; the
order and the kept front are the spec's own decision D14). -/
def Obligations.InputInstruction : Prop :=
  ∀ (d : Target) (s : State),
    encode (.inp d) = [3 + 100 * (d.mode.digit : Int), d.raw] ∧
    (∀ (v : Int) (rest : List Int), s.inQ = v :: rest → s.mem.inb (dest s 0 d) = true →
      ∃ t, exec (.inp d) s = .next t ∧ StoredAt s t (dest s 0 d) v ∧ t.pc = s.pc + 2 ∧ t.inQ = rest ∧
        t.outQ = s.outQ ∧ SameStatus s t) ∧
    (s.inQ = [] → Faults (.inp d) s .inputStarved) ∧
    (s.inQ ≠ [] → s.mem.inb (dest s 0 d) = false → Faults (.inp d) s (.outOfBounds (dest s 0 d)))

/-- InputStarved (60_exceptions.md R153): a step takes it exactly where an IN executes with an empty queue; it carries
no value, the pc stays on the IN, and it is fatal. -/
def Obligations.InputStarvedOnlyFromInput : Prop :=
  ∀ s t : State, s.Inv → step s = .next t →
    (t.errKind = .inputStarved ↔ s.inQ = [] ∧ ∃ d, s.decodeNext = .ok (.inp d)) ∧
    (t.errKind = .inputStarved → t.errInfo = 0 ∧ t.pc = s.pc ∧ t.runState = .faulted ∧ ∀ u, step t ≠ .next u)

/-- OUT whole (42_io.md R111): the encoding; the operand appended to out_q, the event Output of it, pc past two cells,
memory and everything else unchanged; and the fault of an out-of-bounds operand. -/
def Obligations.OutputInstruction : Prop :=
  ∀ (a : Operand) (s : State),
    encode (.out a) = [4 + 100 * (a.mode.digit : Int), a.raw] ∧
    (∀ v : Int, src s a = .ok v →
      ∃ t, exec (.out a) s = .next t ∧ t.outQ = s.outQ ++ [v] ∧ t.pc = s.pc + 2 ∧ t.mem = s.mem ∧ t.inQ = s.inQ ∧
        SameStatus s t ∧ (s.runState = .running → eventOf s t = .output v)) ∧
    (a.mode = .position → s.mem.inb a.raw = false → Faults (.out a) s (.outOfBounds a.raw))

/-- JT and JF whole (43_jumps.md sections 2 and 3): the encoding; both operands resolved, then the pc takes operand 1
where the test of operand 0 holds and passes three cells where it does not; memory and channel unchanged; the faults in
their order, operand 1's taken or not. The opcode number 6 of JF and the eager operand 1 are the spec's own decisions D4
and D13 (log entry 6). -/
def Obligations.JumpInstructions : Prop :=
  ∀ (mk : Operand → Operand → Instr) (taken : Int → Prop) (code : Int),
    (mk = Instr.jt ∧ taken = (fun c => c ≠ 0) ∧ code = 5) ∨ (mk = Instr.jf ∧ taken = (fun c => c = 0) ∧ code = 6) →
    ∀ (a b : Operand) (s : State),
      encode (mk a b) = [code + 100 * (a.mode.digit : Int) + 1000 * (b.mode.digit : Int), a.raw, b.raw] ∧
      (∀ c p : Int, src s a = .ok c → src s b = .ok p →
        ∃ t, exec (mk a b) s = .next t ∧ (taken c → t.pc = p) ∧ (¬taken c → t.pc = s.pc + 3) ∧ t.mem = s.mem ∧
          t.inQ = s.inQ ∧ t.outQ = s.outQ ∧ SameStatus s t) ∧
      (a.mode = .position → s.mem.inb a.raw = false → Faults (mk a b) s (.outOfBounds a.raw)) ∧
      (∀ c : Int, src s a = .ok c → b.mode = .position → s.mem.inb b.raw = false →
        Faults (mk a b) s (.outOfBounds b.raw))

/-- A taken jump to a target outside memory completes with the target in the pc, and the next step's fetch faults with
it: the spec's own decision D10 (43_jumps.md section 1; log entry 6). -/
def Obligations.JumpTargetIsUnchecked : Prop :=
  ∀ (s : State) (a b : Operand) (c p : Int), s.runState = .running →
    (s.decodeNext = .ok (.jt a b) ∧ c ≠ 0) ∨ (s.decodeNext = .ok (.jf a b) ∧ c = 0) →
    src s a = .ok c → src s b = .ok p → (p < 0 ∨ (s.mem.len : Int) ≤ p) →
    ∃ t, step s = .next t ∧ t.pc = p ∧ t.runState = .running ∧ t.mem = s.mem ∧ StepFaults t (.outOfBounds p)

/-- HLT: executing it makes the instance HALTED and changes nothing else, and a step does so for every non-negative
header whose two low digits are 99, whatever follows it. The pc and the higher digits are the spec's own decisions D15
and D21 (45_halt.md; log entry 6). -/
def Obligations.HaltInstruction : Prop :=
  ∀ s : State, (∃ t, exec .hlt s = .next t ∧ t = { s with runState := .halted }) ∧
    (s.runState = .running → ∀ v : Int, s.mem.read s.pc = some v → 0 ≤ v → v % 100 = 99 →
      step s = .next { s with runState := .halted })

/-- Halt is not a fault (60_exceptions.md R160): a step that ends HALTED leaves err_kind NONE and err_info 0. -/
def Obligations.HaltIsNotAFault : Prop :=
  ∀ s t : State, s.Inv → step s = .next t → t.runState = .halted → t.errKind = .none ∧ t.errInfo = 0

/-- A step ends HALTED exactly where the halt signal was decoded, so nothing else writes HALTED (10_state.md
section 5). -/
def Obligations.OnlyHaltHalts : Prop :=
  ∀ s t : State, step s = .next t → (t.runState = .halted ↔ s.decodeNext = .ok .hlt)

/-! ### Frames -/

/-- What ADD, MUL, LT and EQ leave unchanged (40_execution_cycle.md sections 3 to 5): parameters, channel, memory length,
every cell but the one at the result address, and the status, unless a fault was taken with no other effect. -/
def Obligations.ArithmeticAndComparisonFrame : Prop :=
  ∀ (i : Instr) (a b : Operand) (d : Target) (s t : State),
    i = .add a b d ∨ i = .mul a b d ∨ i = .lt a b d ∨ i = .eq a b d → exec i s = .next t →
    t.config = s.config ∧ t.inQ = s.inQ ∧ t.outQ = s.outQ ∧ t.mem.len = s.mem.len ∧
      (∀ c : Int, c ≠ dest s 2 d → t.mem.read c = s.mem.read c) ∧
      (SameStatus s t ∨ ∃ e, FaultedFrom s t e)

/-- What IN leaves unchanged (42_io.md section 1): as above, with operand 0's result address; in_q loses its front or
nothing. -/
def Obligations.InputFrame : Prop :=
  ∀ (d : Target) (s t : State), exec (.inp d) s = .next t →
    t.config = s.config ∧ t.outQ = s.outQ ∧ t.mem.len = s.mem.len ∧
      (∀ c : Int, c ≠ dest s 0 d → t.mem.read c = s.mem.read c) ∧
      ((SameStatus s t ∧ t.inQ = s.inQ.tail) ∨ ∃ e, FaultedFrom s t e)

/-- What OUT, JT, JF and HLT leave unchanged (42_io.md section 2, 43_jumps.md section 1, 45_halt.md): all of memory, in_q,
the parameters; out_q but for OUT, which may add one word at its end; the status but for a fault taken with no other
effect, and HLT's HALTED. That HLT leaves the pc is the spec's own decision D15 (log entry 6). -/
def Obligations.NonStoringFrame : Prop :=
  ∀ (i : Instr) (s t : State), exec i s = .next t →
    (∀ a, i = .out a → t.mem = s.mem ∧ t.inQ = s.inQ ∧ t.config = s.config ∧
      ((SameStatus s t ∧ t.outQ.dropLast = s.outQ) ∨ ∃ e, FaultedFrom s t e)) ∧
    (∀ a b, i = .jt a b ∨ i = .jf a b → t.mem = s.mem ∧ t.inQ = s.inQ ∧ t.outQ = s.outQ ∧ t.config = s.config ∧
      (SameStatus s t ∨ ∃ e, FaultedFrom s t e)) ∧
    (i = .hlt → t.mem = s.mem ∧ t.inQ = s.inQ ∧ t.outQ = s.outQ ∧ t.config = s.config ∧ t.pc = s.pc ∧
      t.errKind = s.errKind ∧ t.errInfo = s.errInfo)

/-- The parameters and N never change (10_state.md sections 7 and 9): whatever is reached has those it started with. -/
def Obligations.ParametersAndLengthAreFixed : Prop :=
  ∀ s t : State, Reaches s t → t.config = s.config ∧ t.mem.len = s.mem.len

/-! ### Faults (60_exceptions.md) -/

/-- Taking a fault (60_exceptions.md R156): FAULTED, the kind and the payload are recorded; M, pc, in_q and out_q keep
their values; and a run operation on the instance returns MachineError with the kind and payload. -/
def Obligations.TakingAFault : Prop :=
  ∀ s t : State, step s = .next t → t.runState = .faulted →
    ∃ e : Error, FaultedFrom s t e ∧
      (∀ (dump : Bool) (n : Nat), runToCompletion dump (n + 1) s = some (.machineError e.kind e.info, t)) ∧
      (∀ n : Nat, runUntilOutput (n + 1) s = some (.machineError e.kind e.info, t))

/-- An InvalidInstruction a step takes comes from the header at the pc, which does not decode, and carries it whole
(60_exceptions.md section 1). -/
def Obligations.InvalidInstructionComesFromTheHeader : Prop :=
  ∀ s t : State, s.Inv → step s = .next t → t.errKind = .invalidInstruction →
    s.mem.read s.pc = some t.errInfo ∧ (∃ e, decodeHeader t.errInfo = .error e) ∧ FaultedFrom s t (.invalidInstruction t.errInfo)

/-- An OutOfBounds a step takes carries an address outside `[0, N)` (60_exceptions.md section 1). -/
def Obligations.OutOfBoundsCarriesABadAddress : Prop :=
  ∀ s t : State, s.Inv → step s = .next t → t.errKind = .outOfBounds →
    (t.errInfo < 0 ∨ (s.mem.len : Int) ≤ t.errInfo) ∧ FaultedFrom s t (.outOfBounds t.errInfo)

/-! ### Reset and the host (70_reset_and_hazards.md) -/

/-- Reset with a legal image and inputs (70_reset_and_hazards.md R180, the table of 10_state.md R30): M is the image, N
its length, pc 0, in_q the inputs, out_q empty, RUNNING, NONE, 0. -/
def Obligations.ResetState : Prop :=
  ∀ (c : Config) (image inputs : List Int), legalReset c image inputs = true →
    ∃ s, State.new c image inputs = .next s ∧ s.mem.len = image.length ∧
      (∀ k : Nat, k < image.length → s.mem.read (k : Int) = image[k]?) ∧ s.pc = 0 ∧ s.inQ = inputs ∧ s.outQ = [] ∧
      s.runState = .running ∧ s.errKind = .none ∧ s.errInfo = 0 ∧ s.config = c

/-- Reset is refused where a value of the image or the inputs is no word or the image is too long: the spec's own
decisions D1 and D2 (70_reset_and_hazards.md section 2). -/
def Obligations.IllegalResetIsRefused : Prop :=
  ∀ (c : Config) (image inputs : List Int),
    (∃ v ∈ image ++ inputs, c.isWord v = false) ∨ c.fitsLength image.length = false →
    State.new c image inputs = .refused .illegalReset

/-- Reset with legal arguments gives a state that meets the invariant (70_reset_and_hazards.md section 2). -/
def Obligations.NewInstanceMeetsInvariant : Prop :=
  ∀ (c : Config) (image inputs : List Int) (s : State), State.new c image inputs = .next s → s.Inv

/-- The state right after reset with nothing supplied meets the invariant (10_state.md section 10). -/
def Obligations.ResetMeetsInvariant : Prop := State.reset.Inv

/-- Every step keeps the invariant: the memory's canonical form and bound, every cell, the pc, the queues and err_info
words, and the recorded fault in step with the run state (10_state.md; 00_scope.md section 4). -/
def Obligations.StepKeepsInvariant : Prop :=
  ∀ s t : State, s.Inv → step s = .next t → t.Inv

/-- `run_to_completion(dump_memory)` (70_reset_and_hazards.md R184): what it returns is the dump or the outputs of the
HALTED state it reached, or the error of the FAULTED one; it returns whenever such a state is reached, and returns
nothing before. -/
def Obligations.RunToCompletion : Prop :=
  ∀ (dump : Bool) (s t : State),
    (∀ (n : Nat) (r : CompletionResult), runToCompletion dump n s = some (r, t) →
      Reaches s t ∧
      ((t.runState = .halted ∧ r = if dump then .memory t.mem.dump else .outputs t.outQ) ∨
       (t.runState = .faulted ∧ r = .machineError t.errKind t.errInfo))) ∧
    (Reaches s t → t.runState ≠ .running → ∃ n r, ∀ m, n ≤ m → runToCompletion dump m s = some (r, t)) ∧
    (t.mem.dump.length = t.mem.len ∧ ∀ k : Nat, k < t.mem.len → t.mem.dump[k]? = t.mem.read (k : Int))

/-- A run call on a HALTED or FAULTED instance makes no step, appends its inputs, and gives the recorded result again:
the spec's own decision D19 (70_reset_and_hazards.md section 3; log entry 6). The inputs are words; what a call with others
does is `IllegalInputsAreRefused`. -/
def Obligations.RunCallsOnTerminalInstances : Prop :=
  ∀ (n : Nat) (dump : Bool) (inputs : List Int) (s : State), (∀ v ∈ inputs, s.config.isWord v = true) →
    (s.runState = .halted →
      runToCompletion dump n s = some (if dump then .memory s.mem.dump else .outputs s.outQ, s) ∧
      runUntilOutputOrHalt n inputs s = some (.halted s.mem.dump s.outQ s.pc, s.appendInputs inputs)) ∧
    (s.runState = .faulted →
      runToCompletion dump n s = some (.machineError s.errKind s.errInfo, s) ∧
      runUntilOutputOrHalt n inputs s = some (.machineError s.errKind s.errInfo, s.appendInputs inputs))

/-- A run call with an input value that is no word is refused on every instance: nothing is appended, no step is made. The
model's own choice (DESIGN CHOICE, log entry 16), for the words of 10_state.md section 7. -/
def Obligations.IllegalInputsAreRefused : Prop :=
  ∀ (n : Nat) (inputs : List Int) (s : State), (∃ v ∈ inputs, s.config.isWord v = false) →
    runUntilOutputOrHalt n inputs s = some (.refused .illegalInputs, s)

/-- The pending-input queue (10_state.md R23): reset sets it to the initial inputs; a run call appends its values at the
back before it steps; a step that is no IN leaves it and does not depend on it; an IN that completes removes the front and
stores it at the result address (42_io.md R110), and one that faults leaves it (60_exceptions.md R156), its front included,
which goes back to the spec's own decisions D11 and D14 (log entry 6); and its elements are words, after reset, and after a
step or a run call with words that starts from words. -/
def Obligations.PendingInputQueue : Prop :=
  (∀ (c : Config) (image inputs : List Int) (s : State), State.new c image inputs = .next s →
    s.inQ = inputs ∧ ∀ v ∈ s.inQ, s.config.isWord v = true) ∧
  (∀ (n : Nat) (inputs : List Int) (s : State), (∀ v ∈ inputs, s.config.isWord v = true) →
    runUntilOutputOrHalt n inputs s = runUntilOutput n { s with inQ := s.inQ ++ inputs }) ∧
  (∀ s t : State, step s = .next t →
    ((¬∃ d, s.decodeNext = .ok (.inp d)) → t.inQ = s.inQ ∧
      ∀ q : List Int, step { s with inQ := q } = .next { t with inQ := q }) ∧
    (∀ d, s.decodeNext = .ok (.inp d) →
      (t.runState = .faulted ∧ t.inQ = s.inQ) ∨
      ∃ v, s.inQ = v :: t.inQ ∧ t.mem.read (dest s 0 d) = some v)) ∧
  (∀ s t : State, (∀ v ∈ s.inQ, s.config.isWord v = true) →
    (step s = .next t → ∀ v ∈ t.inQ, t.config.isWord v = true) ∧
    (∀ (n : Nat) (inputs : List Int) (r : PauseResult), (∀ v ∈ inputs, s.config.isWord v = true) →
      runUntilOutputOrHalt n inputs s = some (r, t) → ∀ v ∈ t.inQ, t.config.isWord v = true))

/-- What the host does to an instance keeps the invariant: both run calls, whatever the input values, and a drain
(70_reset_and_hazards.md section 3). With `NewInstanceMeetsInvariant` it holds of every instance the host can come to
have. -/
def Obligations.HostOperationsKeepInvariant : Prop :=
  ∀ s t : State, s.Inv →
    (∀ (n : Nat) (inputs : List Int) (r : PauseResult), runUntilOutputOrHalt n inputs s = some (r, t) → t.Inv) ∧
    (∀ (dump : Bool) (n : Nat) (r : CompletionResult), runToCompletion dump n s = some (r, t) → t.Inv) ∧
    s.drainOutput.1 = s.outQ ∧ s.drainOutput.2.outQ = [] ∧ s.drainOutput.2.Inv

/-- The pause after an output (42_io.md R112): the call that returns Output(v) leaves exactly the state the completed
OUT produced, after steps that gave no other output; and the outputs of repeated calls until Halted are the output
sequence of one `run_to_completion(false)`, with the same final state, in both directions. -/
def Obligations.SuspendAtOutputKeepsTheRun : Prop :=
  (∀ (n : Nat) (inputs : List Int) (s t : State) (v : Int),
    runUntilOutputOrHalt n inputs s = some (.output v, t) →
    ∃ u a, Reaches (s.appendInputs inputs) u ∧ u.outQ = s.outQ ∧ u.runState = .running ∧
      u.decodeNext = .ok (.out a) ∧ src u a = .ok v ∧ t.outQ = u.outQ ++ [v] ∧ t.pc = u.pc + 2 ∧ t.mem = u.mem ∧
      t.inQ = u.inQ ∧ SameStatus u t) ∧
  (∀ (n calls : Nat) (s t : State) (vs : List Int), outputsUntilHalt n calls s = some (vs, t) →
    ∃ m, runToCompletion false m s = some (.outputs (s.outQ ++ vs), t)) ∧
  (∀ (m : Nat) (s t : State) (q : List Int), runToCompletion false m s = some (.outputs q, t) →
    ∃ n calls vs, outputsUntilHalt n calls s = some (vs, t) ∧ q = s.outQ ++ vs)

/-- No instruction observes the output sequence (70_reset_and_hazards.md section 3, draining): a step from the same
instance with any other contents there differs only in them, and appends the same words. -/
def Obligations.OutputSequenceIsUnobservable : Prop :=
  ∀ (s t : State) (q : List Int), step s = .next t →
    step { s with outQ := q } = .next { t with outQ := q ++ t.outQ.drop s.outQ.length }

/-- Inputs appended behind the pending ones change no step but one that starves (10_state.md section 7, the queue is
consumed front first). -/
def Obligations.LaterInputsDoNotChangeAStep : Prop :=
  ∀ (s t : State) (l : List Int), step s = .next t → t.errKind ≠ .inputStarved →
    step (s.appendInputs l) = .next (t.appendInputs l)

/-- Instances share nothing (20_memory.md section 9, 60_exceptions.md section 9): a step of one leaves every other as
it is, and steps of two instances can be taken in either order with the same result. -/
def Obligations.InstancesShareNothing : Prop :=
  (∀ (net net' : List State) (j : Nat), stepInstance net j = some net' →
    net'.length = net.length ∧ ∀ k : Nat, k ≠ j → net'[k]? = net[k]?) ∧
  ∀ (net n1 n2 : List State) (j k : Nat), j ≠ k → stepInstance net j = some n1 → stepInstance net k = some n2 →
    ∃ n3, stepInstance n1 k = some n3 ∧ stepInstance n2 j = some n3

/-- The feedback network (60_exceptions.md section 9): an output of instance `j` becomes the input of the next call, on
the next instance around the ring; Halted ends the network with the instance it left. -/
def Obligations.FeedbackPassesOutputsAround : Prop :=
  ∀ (n k : Nat) (net : List State) (j : Nat) (inputs : List Int) (s t : State), net[j]? = some s →
    (∀ v : Int, runUntilOutputOrHalt n inputs s = some (.output v, t) →
      feedback n (k + 1) net j inputs = feedback n k (net.set j t) ((j + 1) % net.length) [v]) ∧
    (∀ (m o : List Int) (p : Int), runUntilOutputOrHalt n inputs s = some (.halted m o p, t) →
      feedback n (k + 1) net j inputs = some (.halted m o p, net.set j t))

/-- The finite machine refines the unbounded one (92_eei_decisions.md, Notes on D3 and D1): under OVERFLOW = FAULT a step
that does not end in Overflow is a step of the same instance with XLEN = INF, to the corresponding state. -/
def Obligations.FiniteStepRefinesUnboundedStep : Prop :=
  ∀ s t : State, s.config.overflow = .fault → step s = .next t → t.errKind ≠ .overflow →
    step s.unbounded = .next t.unbounded
end

