-- ==== Sys2Proof/Laws/State.lean ====
section
/-!
SUPPORT. What each named update of the state does to each field, by rfl: no proof unfolds a record update.
-/

namespace Sys2Proof.Machine

variable (s : State)

/-! ### State.raise -/

@[simp] theorem State.raise_config (e : Error) : (s.raise e).config = s.config := rfl
@[simp] theorem State.raise_mem (e : Error) : (s.raise e).mem = s.mem := rfl
@[simp] theorem State.raise_pc (e : Error) : (s.raise e).pc = s.pc := rfl
@[simp] theorem State.raise_inQ (e : Error) : (s.raise e).inQ = s.inQ := rfl
@[simp] theorem State.raise_outQ (e : Error) : (s.raise e).outQ = s.outQ := rfl
@[simp] theorem State.raise_runState (e : Error) : (s.raise e).runState = .faulted := rfl
@[simp] theorem State.raise_errKind (e : Error) : (s.raise e).errKind = e.kind := rfl
@[simp] theorem State.raise_errInfo (e : Error) : (s.raise e).errInfo = e.info := rfl

/-! ### State.store -/

@[simp] theorem State.store_config (a v : Int) : (s.store a v).config = s.config := rfl
@[simp] theorem State.store_mem (a v : Int) : (s.store a v).mem = s.mem.write a v := rfl
@[simp] theorem State.store_pc (a v : Int) : (s.store a v).pc = s.pc := rfl
@[simp] theorem State.store_inQ (a v : Int) : (s.store a v).inQ = s.inQ := rfl
@[simp] theorem State.store_outQ (a v : Int) : (s.store a v).outQ = s.outQ := rfl
@[simp] theorem State.store_runState (a v : Int) : (s.store a v).runState = s.runState := rfl
@[simp] theorem State.store_errKind (a v : Int) : (s.store a v).errKind = s.errKind := rfl
@[simp] theorem State.store_errInfo (a v : Int) : (s.store a v).errInfo = s.errInfo := rfl

/-! ### State.popInput -/

@[simp] theorem State.popInput_config : (s.popInput).config = s.config := rfl
@[simp] theorem State.popInput_mem : (s.popInput).mem = s.mem := rfl
@[simp] theorem State.popInput_pc : (s.popInput).pc = s.pc := rfl
@[simp] theorem State.popInput_inQ : (s.popInput).inQ = s.inQ.tail := rfl
@[simp] theorem State.popInput_outQ : (s.popInput).outQ = s.outQ := rfl
@[simp] theorem State.popInput_runState : (s.popInput).runState = s.runState := rfl
@[simp] theorem State.popInput_errKind : (s.popInput).errKind = s.errKind := rfl
@[simp] theorem State.popInput_errInfo : (s.popInput).errInfo = s.errInfo := rfl

/-! ### State.appendOutput -/

@[simp] theorem State.appendOutput_config (v : Int) : (s.appendOutput v).config = s.config := rfl
@[simp] theorem State.appendOutput_mem (v : Int) : (s.appendOutput v).mem = s.mem := rfl
@[simp] theorem State.appendOutput_pc (v : Int) : (s.appendOutput v).pc = s.pc := rfl
@[simp] theorem State.appendOutput_inQ (v : Int) : (s.appendOutput v).inQ = s.inQ := rfl
@[simp] theorem State.appendOutput_outQ (v : Int) : (s.appendOutput v).outQ = s.outQ ++ [v] := rfl
@[simp] theorem State.appendOutput_runState (v : Int) : (s.appendOutput v).runState = s.runState := rfl
@[simp] theorem State.appendOutput_errKind (v : Int) : (s.appendOutput v).errKind = s.errKind := rfl
@[simp] theorem State.appendOutput_errInfo (v : Int) : (s.appendOutput v).errInfo = s.errInfo := rfl

/-! ### State.setPc -/

@[simp] theorem State.setPc_config (t : Int) : (s.setPc t).config = s.config := rfl
@[simp] theorem State.setPc_mem (t : Int) : (s.setPc t).mem = s.mem := rfl
@[simp] theorem State.setPc_pc (t : Int) : (s.setPc t).pc = t := rfl
@[simp] theorem State.setPc_inQ (t : Int) : (s.setPc t).inQ = s.inQ := rfl
@[simp] theorem State.setPc_outQ (t : Int) : (s.setPc t).outQ = s.outQ := rfl
@[simp] theorem State.setPc_runState (t : Int) : (s.setPc t).runState = s.runState := rfl
@[simp] theorem State.setPc_errKind (t : Int) : (s.setPc t).errKind = s.errKind := rfl
@[simp] theorem State.setPc_errInfo (t : Int) : (s.setPc t).errInfo = s.errInfo := rfl

/-! ### State.advance -/

@[simp] theorem State.advance_config (n : Nat) : (s.advance n).config = s.config := rfl
@[simp] theorem State.advance_mem (n : Nat) : (s.advance n).mem = s.mem := rfl
@[simp] theorem State.advance_pc (n : Nat) : (s.advance n).pc = s.pc + (n : Int) := rfl
@[simp] theorem State.advance_inQ (n : Nat) : (s.advance n).inQ = s.inQ := rfl
@[simp] theorem State.advance_outQ (n : Nat) : (s.advance n).outQ = s.outQ := rfl
@[simp] theorem State.advance_runState (n : Nat) : (s.advance n).runState = s.runState := rfl
@[simp] theorem State.advance_errKind (n : Nat) : (s.advance n).errKind = s.errKind := rfl
@[simp] theorem State.advance_errInfo (n : Nat) : (s.advance n).errInfo = s.errInfo := rfl

/-! ### State.halt -/

@[simp] theorem State.halt_config : (s.halt).config = s.config := rfl
@[simp] theorem State.halt_mem : (s.halt).mem = s.mem := rfl
@[simp] theorem State.halt_pc : (s.halt).pc = s.pc := rfl
@[simp] theorem State.halt_inQ : (s.halt).inQ = s.inQ := rfl
@[simp] theorem State.halt_outQ : (s.halt).outQ = s.outQ := rfl
@[simp] theorem State.halt_runState : (s.halt).runState = .halted := rfl
@[simp] theorem State.halt_errKind : (s.halt).errKind = s.errKind := rfl
@[simp] theorem State.halt_errInfo : (s.halt).errInfo = s.errInfo := rfl

/-! ### State.appendInputs -/

@[simp] theorem State.appendInputs_config (l : List Int) : (s.appendInputs l).config = s.config := rfl
@[simp] theorem State.appendInputs_mem (l : List Int) : (s.appendInputs l).mem = s.mem := rfl
@[simp] theorem State.appendInputs_pc (l : List Int) : (s.appendInputs l).pc = s.pc := rfl
@[simp] theorem State.appendInputs_inQ (l : List Int) : (s.appendInputs l).inQ = s.inQ ++ l := rfl
@[simp] theorem State.appendInputs_outQ (l : List Int) : (s.appendInputs l).outQ = s.outQ := rfl
@[simp] theorem State.appendInputs_runState (l : List Int) : (s.appendInputs l).runState = s.runState := rfl
@[simp] theorem State.appendInputs_errKind (l : List Int) : (s.appendInputs l).errKind = s.errKind := rfl
@[simp] theorem State.appendInputs_errInfo (l : List Int) : (s.appendInputs l).errInfo = s.errInfo := rfl

/-! ### State.unbounded -/

@[simp] theorem State.unbounded_config : (s.unbounded).config = { s.config with xlen := none } := rfl
@[simp] theorem State.unbounded_mem : (s.unbounded).mem = s.mem := rfl
@[simp] theorem State.unbounded_pc : (s.unbounded).pc = s.pc := rfl
@[simp] theorem State.unbounded_inQ : (s.unbounded).inQ = s.inQ := rfl
@[simp] theorem State.unbounded_outQ : (s.unbounded).outQ = s.outQ := rfl
@[simp] theorem State.unbounded_runState : (s.unbounded).runState = s.runState := rfl
@[simp] theorem State.unbounded_errKind : (s.unbounded).errKind = s.errKind := rfl
@[simp] theorem State.unbounded_errInfo : (s.unbounded).errInfo = s.errInfo := rfl

end Sys2Proof.Machine
end

