-- ==== Sys2Proof/Laws/Memory.lean ====
section
/-!
SUPPORT. The laws of memory: a read after a write (20_memory.md R43, R48), the canonical form and its uniqueness,
words in memory, and what loading an image gives.
-/

namespace Sys2Proof.Machine

/-! ### The list of pairs -/

@[simp] theorem lookupCell_nil (a : Nat) : lookupCell [] a = 0 := rfl

theorem lookupCell_eraseCell_self (a : Nat) (l : List (Nat × Int)) : lookupCell (eraseCell a l) a = 0 := by
  induction l with
  | nil => rfl
  | cons c rest ih => by_cases h : c.1 = a <;> simp [eraseCell, lookupCell, h, ih]

theorem lookupCell_eraseCell_ne {a b : Nat} (hab : b ≠ a) (l : List (Nat × Int)) :
    lookupCell (eraseCell a l) b = lookupCell l b := by
  induction l with
  | nil => rfl
  | cons c rest ih =>
    by_cases h : c.1 = a
    · simp [eraseCell, lookupCell, h, ih, Ne.symm hab]
    · simp [eraseCell, lookupCell, h, ih]

theorem not_mem_eraseCell (a : Nat) (l : List (Nat × Int)) : ∀ c ∈ eraseCell a l, c.1 ≠ a := by
  induction l with
  | nil => simp [eraseCell]
  | cons c rest ih =>
    by_cases h : c.1 = a
    · simpa [eraseCell, h] using ih
    · simpa [eraseCell, h] using ih

theorem lookupCell_insertCell_self (a : Nat) (v : Int) (l : List (Nat × Int)) (h : ∀ c ∈ l, c.1 ≠ a) :
    lookupCell (insertCell a v l) a = v := by
  induction l with
  | nil => simp [insertCell, lookupCell]
  | cons c rest ih =>
    have hc : c.1 ≠ a := h c (by simp)
    by_cases hlt : a < c.1
    · simp [insertCell, lookupCell, hlt]
    · simp only [insertCell, hlt, if_false, lookupCell, hc]
      exact ih fun x hx => h x (by simp [hx])

theorem lookupCell_insertCell_ne {a b : Nat} (hab : b ≠ a) (v : Int) (l : List (Nat × Int)) :
    lookupCell (insertCell a v l) b = lookupCell l b := by
  induction l with
  | nil => simp [insertCell, lookupCell, Ne.symm hab]
  | cons c rest ih =>
    by_cases hlt : a < c.1
    · simp [insertCell, lookupCell, hlt, Ne.symm hab]
    · simp [insertCell, lookupCell, hlt, ih]

/-- A store is read back at its address. -/
theorem lookupCell_storeCell_self (a : Nat) (v : Int) (l : List (Nat × Int)) :
    lookupCell (storeCell a v l) a = v := by
  unfold storeCell
  split
  · next h => rw [lookupCell_eraseCell_self, h]
  · exact lookupCell_insertCell_self a v _ (not_mem_eraseCell a l)

/-- A store leaves every other address alone. -/
theorem lookupCell_storeCell_ne {a b : Nat} (hab : b ≠ a) (v : Int) (l : List (Nat × Int)) :
    lookupCell (storeCell a v l) b = lookupCell l b := by
  unfold storeCell
  split
  · exact lookupCell_eraseCell_ne hab l
  · rw [lookupCell_insertCell_ne hab, lookupCell_eraseCell_ne hab]

/-! ### Membership -/

theorem mem_eraseCell {a : Nat} {l : List (Nat × Int)} {c : Nat × Int} (h : c ∈ eraseCell a l) : c ∈ l := by
  induction l with
  | nil => simp [eraseCell] at h
  | cons d rest ih =>
    by_cases hd : d.1 = a
    · simp only [eraseCell, hd, if_true] at h
      exact List.mem_cons_of_mem _ (ih h)
    · simp only [eraseCell, hd, if_false, List.mem_cons] at h
      rcases h with h | h
      · simp [h]
      · exact List.mem_cons_of_mem _ (ih h)

theorem mem_insertCell {a : Nat} {v : Int} {l : List (Nat × Int)} {c : Nat × Int}
    (h : c ∈ insertCell a v l) : c = (a, v) ∨ c ∈ l := by
  induction l with
  | nil => simpa [insertCell] using h
  | cons d rest ih =>
    by_cases hd : a < d.1
    · simpa [insertCell, hd] using h
    · simp only [insertCell, hd, if_false, List.mem_cons] at h ⊢
      rcases h with h | h
      · exact .inr (.inl h)
      · exact (ih h).imp_right .inr

/-- Every pair of the list after a store is the stored one (never a 0) or an old one at another address. -/
theorem mem_storeCell {a : Nat} {v : Int} {l : List (Nat × Int)} {c : Nat × Int}
    (h : c ∈ storeCell a v l) : (c = (a, v) ∧ v ≠ 0) ∨ c ∈ l := by
  unfold storeCell at h
  split at h
  · exact .inr (mem_eraseCell h)
  · next hv => exact (mem_insertCell h).imp (⟨·, hv⟩) mem_eraseCell

/-! ### The canonical form -/

theorem pairwise_eraseCell {a : Nat} {l : List (Nat × Int)} (h : l.Pairwise fun x y => x.1 < y.1) :
    (eraseCell a l).Pairwise fun x y => x.1 < y.1 := by
  induction l with
  | nil => exact .nil
  | cons d rest ih =>
    have hr := List.pairwise_cons.1 h
    by_cases hd : d.1 = a
    · simpa [eraseCell, hd] using ih hr.2
    · simp only [eraseCell, hd, if_false]
      exact List.pairwise_cons.2 ⟨fun y hy => hr.1 y (mem_eraseCell hy), ih hr.2⟩

theorem pairwise_insertCell {a : Nat} {v : Int} {l : List (Nat × Int)} (hne : ∀ c ∈ l, c.1 ≠ a)
    (h : l.Pairwise fun x y => x.1 < y.1) : (insertCell a v l).Pairwise fun x y => x.1 < y.1 := by
  induction l with
  | nil => simp [insertCell]
  | cons d rest ih =>
    have hr := List.pairwise_cons.1 h
    by_cases hd : a < d.1
    · simp only [insertCell, hd, if_true]
      refine List.pairwise_cons.2 ⟨fun y hy => ?_, h⟩
      rcases List.mem_cons.1 hy with rfl | hy
      · exact hd
      · exact hd.trans (hr.1 y hy)
    · simp only [insertCell, hd, if_false]
      have hda : d.1 < a := by
        have := hne d (by simp)
        omega
      refine List.pairwise_cons.2 ⟨fun y hy => ?_, ih (fun c hc => hne c (by simp [hc])) hr.2⟩
      rcases mem_insertCell hy with rfl | hy
      · exact hda
      · exact hr.1 y hy

theorem pairwise_storeCell {a : Nat} {v : Int} {l : List (Nat × Int)}
    (h : l.Pairwise fun x y => x.1 < y.1) : (storeCell a v l).Pairwise fun x y => x.1 < y.1 := by
  unfold storeCell
  split
  · exact pairwise_eraseCell h
  · exact pairwise_insertCell (not_mem_eraseCell a l) (pairwise_eraseCell h)

/-! ### Reads and writes of a memory -/

@[simp] theorem Memory.write_len (m : Memory) (a v : Int) : (m.write a v).len = m.len := rfl

/-- Inside memory is `0 <= a < N` (00_scope.md R9). -/
theorem Memory.inb_iff {m : Memory} {a : Int} : m.inb a = true ↔ 0 ≤ a ∧ a < (m.len : Int) := by
  simp [Memory.inb]

theorem Memory.inb_eq_false {m : Memory} {a : Int} : m.inb a = false ↔ a < 0 ∨ (m.len : Int) ≤ a := by
  rw [← Bool.not_eq_true, Memory.inb_iff]
  omega

@[simp] theorem Memory.inb_write (m : Memory) (a v b : Int) : (m.write a v).inb b = m.inb b := rfl

/-- A read succeeds exactly inside memory (R45). -/
theorem Memory.read_eq_none {m : Memory} {a : Int} : m.read a = none ↔ m.inb a = false := by
  unfold Memory.read
  split <;> simp_all

theorem Memory.read_of_inb {m : Memory} {a : Int} (h : m.inb a = true) : m.read a = some (lookupCell m.cells a.toNat) :=
  if_pos h

theorem Memory.inb_of_read {m : Memory} {a v : Int} (h : m.read a = some v) : m.inb a = true := by
  by_contra hn
  rw [Memory.read_eq_none.2 (by simpa using hn)] at h
  cases h

/-- A read after a write to the same cell gives the word written. -/
theorem Memory.read_write_self {m : Memory} {a : Int} (v : Int) (h : m.inb a = true) : (m.write a v).read a = some v := by
  rw [Memory.read_of_inb (by simpa using h)]
  exact congrArg some (lookupCell_storeCell_self _ _ _)

/-- A write leaves every other address as it was. -/
theorem Memory.read_write_ne {m : Memory} {a b : Int} (v : Int) (h : m.inb a = true) (hb : b ≠ a) :
    (m.write a v).read b = m.read b := by
  by_cases hi : m.inb b = true
  · rw [Memory.read_of_inb hi, Memory.read_of_inb (by simpa using hi)]
    have hab : b.toNat ≠ a.toNat := by
      obtain ⟨ha0, -⟩ := Memory.inb_iff.1 h
      obtain ⟨hb0, -⟩ := Memory.inb_iff.1 hi
      omega
    exact congrArg some (lookupCell_storeCell_ne hab _ _)
  · have hf : m.inb b = false := by simpa using hi
    rw [Memory.read_eq_none.2 hf, Memory.read_eq_none.2 (by simpa using hf)]

/-- The read port after a write, as one equation. -/
theorem Memory.read_write {m : Memory} {a : Int} (v : Int) (h : m.inb a = true) :
    (m.write a v).read = fun b => if b = a then some v else m.read b := by
  funext b
  by_cases hb : b = a
  · rw [if_pos hb, hb, Memory.read_write_self v h]
  · rw [if_neg hb, Memory.read_write_ne v h hb]

/-- A write keeps the canonical form. -/
theorem Memory.wf_write {m : Memory} {a : Int} (v : Int) (h : m.inb a = true) (hm : m.wf) : (m.write a v).wf := by
  refine ⟨pairwise_storeCell hm.1, fun c hc => ?_⟩
  rcases mem_storeCell hc with ⟨rfl, hv⟩ | hc
  · refine ⟨?_, hv⟩
    obtain ⟨ha0, hal⟩ := Memory.inb_iff.1 h
    show a.toNat < m.len
    omega
  · exact hm.2 c hc

/-- A write of a word keeps every cell a word. -/
theorem Memory.holdsWords_write {c : Config} {m : Memory} {a v : Int} (hv : c.isWord v = true)
    (hm : m.holdsWords c) : (m.write a v).holdsWords c := by
  intro x hx
  rcases mem_storeCell hx with ⟨rfl, -⟩ | hx
  · exact hv
  · exact hm x hx

/-- A cell read from a memory of words is a word, if 0 is one. -/
theorem Memory.isWord_of_read {c : Config} {m : Memory} {a v : Int} (h0 : c.isWord 0 = true)
    (hm : m.holdsWords c) (h : m.read a = some v) : c.isWord v = true := by
  rw [Memory.read_of_inb (Memory.inb_of_read h), Option.some.injEq] at h
  subst h
  have key : ∀ l : List (Nat × Int), (∀ x ∈ l, c.isWord x.2 = true) → ∀ k, c.isWord (lookupCell l k) = true := by
    intro l
    induction l with
    | nil => exact fun _ _ => h0
    | cons d rest ih =>
      intro hl k
      unfold lookupCell
      split
      · exact hl d (by simp)
      · exact ih (fun x hx => hl x (by simp [hx])) k
  exact key _ hm _

/-! ### Loading -/

theorem Memory.load_len (l : List Int) (m : Memory) (a : Nat) :
    (m.load a l).len = if l = [] then m.len else max m.len (a + l.length) := by
  induction l generalizing m a with
  | nil => rfl
  | cons v rest ih =>
    rw [Memory.load, ih]
    by_cases h : rest = []
    · simp [h]
    · simp only [h, if_false, List.length_cons, reduceCtorEq]
      omega

/-- The listed word of an address after loading: the loaded one where it was loaded, else the old one. -/
theorem Memory.lookupCell_load (l : List Int) (m : Memory) (a b : Nat) :
    lookupCell (m.load a l).cells b =
      if a ≤ b ∧ b < a + l.length then l.getD (b - a) 0 else lookupCell m.cells b := by
  induction l generalizing m a with
  | nil =>
    rw [if_neg (by simp)]
    rfl
  | cons v rest ih =>
    rw [Memory.load, ih]
    rcases lt_trichotomy b a with h | h | h
    · rw [if_neg (by omega), if_neg (by omega)]
      exact lookupCell_storeCell_ne (by omega) _ _
    · subst h
      rw [if_neg (by omega), if_pos (by simp)]
      simpa using lookupCell_storeCell_self b v m.cells
    · by_cases hb : b < a + 1 + rest.length
      · rw [if_pos (by omega), if_pos (by simp; omega)]
        obtain ⟨k, rfl⟩ : ∃ k, b = a + 1 + k := ⟨b - (a + 1), by omega⟩
        have : a + 1 + k - a = k + 1 := by omega
        simp [this]
      · rw [if_neg (by omega), if_neg (by simp; omega)]
        exact lookupCell_storeCell_ne (by omega) _ _

/-- Loading keeps the canonical form. -/
theorem Memory.wf_load (l : List Int) {m : Memory} {a : Nat} (hm : m.wf) : (m.load a l).wf := by
  induction l generalizing m a with
  | nil => exact hm
  | cons v rest ih =>
    rw [Memory.load]
    refine ih ⟨pairwise_storeCell hm.1, fun c hc => ?_⟩
    rcases mem_storeCell hc with ⟨rfl, hv⟩ | hc
    · exact ⟨by simp, hv⟩
    · have := hm.2 c hc
      exact ⟨lt_of_lt_of_le this.1 (le_max_left _ _), this.2⟩

/-- Loading words into a memory of words gives a memory of words. -/
theorem Memory.holdsWords_load {c : Config} (l : List Int) {m : Memory} {a : Nat}
    (hl : ∀ v ∈ l, c.isWord v = true) (hm : m.holdsWords c) : (m.load a l).holdsWords c := by
  induction l generalizing m a with
  | nil => exact hm
  | cons v rest ih =>
    rw [Memory.load]
    refine ih (fun x hx => hl x (by simp [hx])) fun x hx => ?_
    rcases mem_storeCell hx with ⟨rfl, -⟩ | hx
    · exact hl v (by simp)
    · exact hm x hx

theorem Memory.wf_empty : Memory.wf { len := 0, cells := [] } := ⟨.nil, fun _ h => nomatch h⟩

/-- N is the image's length. -/
theorem Memory.ofImage_len (image : List Int) : (Memory.ofImage image).len = image.length := by
  rw [Memory.ofImage, Memory.load_len]
  split
  · next h => simp [h]
  · simp

/-- Cell `k` holds the image's `k`-th integer (70_reset_and_hazards.md R183). -/
theorem Memory.ofImage_read (image : List Int) (k : Nat) (h : k < image.length) :
    (Memory.ofImage image).read (k : Int) = image[k]? := by
  have hi : (Memory.ofImage image).inb (k : Int) = true := by
    refine Memory.inb_iff.2 ⟨Int.natCast_nonneg k, ?_⟩
    rw [Memory.ofImage_len]
    exact_mod_cast h
  rw [Memory.read_of_inb hi, Memory.ofImage, Memory.lookupCell_load, if_pos (by simpa using h)]
  simp [h]

/-! ### Equal memories are equal data -/

theorem lookupCell_of_mem {l : List (Nat × Int)} (h : l.Pairwise fun x y => x.1 < y.1) {c : Nat × Int}
    (hc : c ∈ l) : lookupCell l c.1 = c.2 := by
  induction l with
  | nil => cases hc
  | cons d rest ih =>
    have hr := List.pairwise_cons.1 h
    rcases List.mem_cons.1 hc with rfl | hc
    · simp [lookupCell]
    · have := hr.1 c hc
      simp only [lookupCell, show d.1 ≠ c.1 by omega, if_false]
      exact ih hr.2 hc

theorem mem_of_lookupCell {l : List (Nat × Int)} {a : Nat} (h : lookupCell l a ≠ 0) : (a, lookupCell l a) ∈ l := by
  induction l with
  | nil => exact absurd rfl h
  | cons d rest ih =>
    by_cases hd : d.1 = a
    · subst hd
      simp [lookupCell]
    · simp only [lookupCell, hd, if_false] at h ⊢
      exact List.mem_cons_of_mem _ (ih h)

end Sys2Proof.Machine
end

