-- ==== Sys2Proof/Laws/Operations.lean ====
section
/-!
SUPPORT. One lemma per shared operation that says everything it can do: reads and writes, source operands, the common
parts of the instructions, commit. Later proofs cite these and unfold nothing.
-/

namespace Sys2Proof.Machine

/-! ### Reads and writes -/

theorem State.memRead_eq_ok {s : State} {a v : Int} : s.memRead a = .ok v ↔ s.mem.read a = some v := by
  unfold State.memRead
  split <;> simp_all

theorem State.memRead_eq_error {s : State} {a : Int} {e : Error} :
    s.memRead a = .error e ↔ s.mem.inb a = false ∧ e = .outOfBounds a := by
  unfold State.memRead
  split
  · next h => simp [Memory.inb_of_read h]
  · next h => simp [Memory.read_eq_none.1 h, eq_comm]

theorem State.memWrite_eq_ok {s t : State} {a v : Int} : s.memWrite a v = .ok t ↔ s.mem.inb a = true ∧ t = s.store a v := by
  unfold State.memWrite
  split
  · next h => simp [h, eq_comm]
  · next h => simp [h]

theorem State.memWrite_eq_error {s : State} {a v : Int} {e : Error} :
    s.memWrite a v = .error e ↔ s.mem.inb a = false ∧ e = .outOfBounds a := by
  unfold State.memWrite
  split
  · next h => simp [h]
  · next h => simp [h, eq_comm]

theorem State.frontInput_eq_ok {s : State} {v : Int} : s.frontInput = .ok v ↔ ∃ rest, s.inQ = v :: rest := by
  unfold State.frontInput
  split <;> simp_all

theorem State.frontInput_eq_error {s : State} {e : Error} :
    s.frontInput = .error e ↔ s.inQ = [] ∧ e = .inputStarved := by
  unfold State.frontInput
  split <;> simp_all [eq_comm]

/-! ### Commit -/

@[simp] theorem State.commit_ok (s t : State) : s.commit (.ok t) = .next t := rfl

@[simp] theorem State.commit_error (s : State) (e : Error) : s.commit (.error e) = .next (s.raise e) := rfl

/-- What a committed instruction answers: the state it made, or the state before it with a fault taken. -/
theorem State.commit_eq_next {s t : State} {r : Except Error State} :
    s.commit r = .next t ↔ r = .ok t ∨ ∃ e, r = .error e ∧ t = s.raise e := by
  cases r <;> simp [eq_comm]

/-! ### Sources -/

@[simp] theorem src_immediate (s : State) (r : Int) : src s ⟨.immediate, r⟩ = .ok r := rfl

@[simp] theorem src_position (s : State) (r : Int) : src s ⟨.position, r⟩ = s.memRead r := rfl

theorem src_eq_ok {s : State} {o : Operand} {v : Int} :
    src s o = .ok v ↔ (o.mode = .immediate ∧ v = o.raw) ∨ (o.mode = .position ∧ s.mem.read o.raw = some v) := by
  obtain ⟨m, r⟩ := o
  cases m
  · simp [State.memRead_eq_ok]
  · simp [eq_comm]

theorem src_eq_error {s : State} {o : Operand} {e : Error} :
    src s o = .error e ↔ o.mode = .position ∧ s.mem.inb o.raw = false ∧ e = .outOfBounds o.raw := by
  obtain ⟨m, r⟩ := o
  cases m <;> simp [State.memRead_eq_error]

/-! ### The common parts of the instructions -/

theorem binaryResult_eq_ok {op : Int → Int → Except Error Int} {a b : Operand} {d : Target} {s t : State} :
    binaryResult op a b d s = .ok t ↔
      ∃ x y r, src s a = .ok x ∧ src s b = .ok y ∧ op x y = .ok r ∧ s.mem.inb (dest s 2 d) = true ∧
        t = (s.store (dest s 2 d) r).advance 4 := by
  unfold binaryResult
  rcases ha : src s a with e | x
  · simp [bind, Except.bind]
  rcases hb : src s b with e | y
  · simp [bind, Except.bind]
  rcases ho : op x y with e | r
  · simp [bind, Except.bind, ho]
  rcases hw : s.memWrite (dest s 2 d) r with e | u
  · have := (State.memWrite_eq_error.1 hw).1
    simp [bind, Except.bind, ho, hw, this]
  · obtain ⟨hi, rfl⟩ := State.memWrite_eq_ok.1 hw
    simp [bind, Except.bind, pure, Except.pure, ho, hw, hi, eq_comm]

theorem binaryResult_eq_error {op : Int → Int → Except Error Int} {a b : Operand} {d : Target} {s : State}
    {e : Error} :
    binaryResult op a b d s = .error e ↔
      src s a = .error e ∨
      (∃ x, src s a = .ok x ∧ src s b = .error e) ∨
      (∃ x y, src s a = .ok x ∧ src s b = .ok y ∧ op x y = .error e) ∨
      (∃ x y r, src s a = .ok x ∧ src s b = .ok y ∧ op x y = .ok r ∧ s.mem.inb (dest s 2 d) = false ∧
        e = .outOfBounds (dest s 2 d)) := by
  unfold binaryResult
  rcases ha : src s a with e' | x
  · simp [bind, Except.bind]
  rcases hb : src s b with e' | y
  · simp [bind, Except.bind]
  rcases ho : op x y with e' | r
  · simp [bind, Except.bind, ho]
  rcases hw : s.memWrite (dest s 2 d) r with e' | u
  · obtain ⟨hn, rfl⟩ := State.memWrite_eq_error.1 hw
    simp [bind, Except.bind, ho, hw, hn, eq_comm]
  · obtain ⟨hi, rfl⟩ := State.memWrite_eq_ok.1 hw
    simp [bind, Except.bind, pure, Except.pure, ho, hw, hi]

theorem conditionalJump_eq_ok {taken : Int → Bool} {a b : Operand} {s t : State} :
    conditionalJump taken a b s = .ok t ↔
      ∃ c p, src s a = .ok c ∧ src s b = .ok p ∧ t = if taken c then s.setPc p else s.advance 3 := by
  unfold conditionalJump
  rcases ha : src s a with e | x
  · simp [bind, Except.bind]
  rcases hb : src s b with e | y
  · simp [bind, Except.bind]
  simp only [bind, Except.bind, pure, Except.pure, Except.ok.injEq]
  exact ⟨fun h => ⟨x, y, rfl, rfl, h.symm⟩, fun ⟨c, p, hc, hp, h⟩ => by subst hc; subst hp; exact h.symm⟩

theorem conditionalJump_eq_error {taken : Int → Bool} {a b : Operand} {s : State} {e : Error} :
    conditionalJump taken a b s = .error e ↔
      src s a = .error e ∨ ∃ c, src s a = .ok c ∧ src s b = .error e := by
  unfold conditionalJump
  rcases ha : src s a with e' | x
  · simp [bind, Except.bind]
  rcases hb : src s b with e' | y
  · simp [bind, Except.bind]
  simp [bind, Except.bind, pure, Except.pure]

theorem readInput_eq_ok {d : Target} {s t : State} :
    readInput d s = .ok t ↔
      ∃ v rest, s.inQ = v :: rest ∧ s.mem.inb (dest s 0 d) = true ∧ t = (s.store (dest s 0 d) v).popInput.advance 2 := by
  unfold readInput
  rcases hf : s.frontInput with e | v
  · have := (State.frontInput_eq_error.1 hf).1
    simp [bind, Except.bind, this]
  obtain ⟨rest, hr⟩ := State.frontInput_eq_ok.1 hf
  rcases hw : s.memWrite (dest s 0 d) v with e | u
  · have := (State.memWrite_eq_error.1 hw).1
    simp [bind, Except.bind, hw, hr, this]
  · obtain ⟨hi, rfl⟩ := State.memWrite_eq_ok.1 hw
    simp [bind, Except.bind, pure, Except.pure, hw, hr, hi, eq_comm]

theorem readInput_eq_error {d : Target} {s : State} {e : Error} :
    readInput d s = .error e ↔
      (s.inQ = [] ∧ e = .inputStarved) ∨
      (s.inQ ≠ [] ∧ s.mem.inb (dest s 0 d) = false ∧ e = .outOfBounds (dest s 0 d)) := by
  unfold readInput
  rcases hf : s.frontInput with e' | v
  · obtain ⟨hn, rfl⟩ := State.frontInput_eq_error.1 hf
    simp [bind, Except.bind, hn, @eq_comm Error e]
  obtain ⟨rest, hr⟩ := State.frontInput_eq_ok.1 hf
  rcases hw : s.memWrite (dest s 0 d) v with e' | u
  · obtain ⟨hn, rfl⟩ := State.memWrite_eq_error.1 hw
    simp [bind, Except.bind, hw, hr, hn, @eq_comm Error e]
  · obtain ⟨hi, rfl⟩ := State.memWrite_eq_ok.1 hw
    simp [bind, Except.bind, pure, Except.pure, hw, hr, hi]

theorem writeOutput_eq_ok {a : Operand} {s t : State} :
    writeOutput a s = .ok t ↔ ∃ v, src s a = .ok v ∧ t = (s.appendOutput v).advance 2 := by
  unfold writeOutput
  rcases ha : src s a with e | v <;> simp [bind, Except.bind, pure, Except.pure, eq_comm]

theorem writeOutput_eq_error {a : Operand} {s : State} {e : Error} :
    writeOutput a s = .error e ↔ src s a = .error e := by
  unfold writeOutput
  rcases ha : src s a with e' | v <;> simp [bind, Except.bind, pure, Except.pure]

/-! ### The arithmetic result -/

theorem narrow_of_isWord {c : Config} {v : Int} (h : c.isWord v = true) : narrow c v = .ok v := by
  simp [narrow, h]

theorem narrow_eq_ok {c : Config} {v r : Int} :
    narrow c v = .ok r ↔
      (c.isWord v = true ∧ r = v) ∨ (c.isWord v = false ∧ c.overflow = .wrap ∧ r = c.wrapWord v) := by
  unfold narrow
  by_cases h : c.isWord v = true
  · simp [h, eq_comm]
  · cases ho : c.overflow <;> simp [h, eq_comm]

theorem narrow_eq_error {c : Config} {v : Int} {e : Error} :
    narrow c v = .error e ↔ c.isWord v = false ∧ c.overflow = .fault ∧ e = .overflow := by
  unfold narrow
  by_cases h : c.isWord v = true
  · simp [h]
  · cases ho : c.overflow <;> simp [h, eq_comm]

end Sys2Proof.Machine
end

