-- ==== Sys2Proof/Laws/Words.lean ====
section
/-!
SUPPORT. Which integers are words (00_scope.md R7, R8).
-/

namespace Sys2Proof

/-- With XLEN = INF every integer is a word. -/
theorem Config.isWord_of_unbounded {c : Config} (h : c.xlen = none) (v : Int) : c.isWord v = true := by
  simp [Config.isWord, Config.half, h]

/-- With a finite XLEN the words are the integers of `[-2^(XLEN-1), 2^(XLEN-1) - 1]`. -/
theorem Config.isWord_iff {c : Config} {x : Nat} (h : c.xlen = some x) (v : Int) :
    c.isWord v = true ↔ -((2 ^ (x - 1) : Nat) : Int) ≤ v ∧ v ≤ ((2 ^ (x - 1) : Nat) : Int) - 1 := by
  simp [Config.isWord, Config.half, h]

theorem Config.isWord_iff_half {c : Config} {n : Nat} (h : c.half = some n) (v : Int) :
    c.isWord v = true ↔ -(n : Int) ≤ v ∧ v ≤ (n : Int) - 1 := by
  simp [Config.isWord, h]

theorem Config.isWord_of_no_half {c : Config} (h : c.half = none) (v : Int) : c.isWord v = true := by
  simp [Config.isWord, h]

/-- Legal parameters have at least 2^31 non-negative words. -/
theorem Config.half_ge {c : Config} (hl : c.legal = true) {n : Nat} (h : c.half = some n) : 2 ^ 31 ≤ n := by
  unfold Config.half at h
  unfold Config.legal at hl
  cases hx : c.xlen with
  | none => simp [hx] at h
  | some x =>
    simp only [hx, Option.map_some, Option.some.injEq, decide_eq_true_eq] at h hl
    rw [← h]
    exact Nat.pow_le_pow_right (by decide) (by omega)

/-- Every integer from -2^31 to 2^31 - 1 is a word of legal parameters. -/
theorem Config.isWord_small {c : Config} (hl : c.legal = true) {v : Int} (h1 : -(2 ^ 31) ≤ v) (h2 : v < 2 ^ 31) :
    c.isWord v = true := by
  cases h : c.half with
  | none => exact Config.isWord_of_no_half h v
  | some n =>
    have := Config.half_ge hl h
    rw [Config.isWord_iff_half h]
    omega

/-- An address at most 4 past a cell of a memory of legal length is a word (00_scope.md R7: the bound of MEMLEN). -/
theorem Config.isWord_near {c : Config} {n : Nat} (hf : c.fitsLength n = true) {v : Int} (h0 : 0 ≤ v)
    (h1 : v < (n : Int) + 4) : c.isWord v = true := by
  cases h : c.half with
  | none => exact Config.isWord_of_no_half h v
  | some k =>
    rw [Config.isWord_iff_half h]
    simp only [Config.fitsLength, h, decide_eq_true_eq] at hf
    omega

/-- The reduction of OVERFLOW = WRAP gives a word. -/
theorem Config.isWord_wrapWord {c : Config} (hl : c.legal = true) (v : Int) : c.isWord (c.wrapWord v) = true := by
  cases hx : c.xlen with
  | none => exact Config.isWord_of_unbounded hx _
  | some x =>
    have hx32 : 32 ≤ x := by simpa [Config.legal, hx] using hl
    rw [Config.isWord_iff hx]
    have h2 : (2 ^ x : Nat) = 2 * 2 ^ (x - 1) := by
      rw [← Nat.pow_succ']
      congr 1
      omega
    have hpos : 0 < 2 ^ x := Nat.pow_pos (by decide)
    have hlo := Int.le_bmod (x := v) hpos
    have hhi := Int.bmod_lt (x := v) hpos
    simp only [Config.wrapWord, hx]
    rw [h2] at hlo hhi ⊢
    push_cast at hlo hhi ⊢
    omega

end Sys2Proof
end

