-- ==== Sys2Proof/Laws/Decoding.lean ====
section
/-!
SUPPORT. What the decoder can answer (30_encoding.md R74): one lemma for success and one for failure, per part and
for the whole.
-/

namespace Sys2Proof

theorem rawOperand_eq_ok {fetch : Int → Option Int} {pc : Int} {i : Nat} {r : Int} :
    rawOperand fetch pc i = .ok r ↔ fetch (pc + 1 + (i : Int)) = some r := by
  unfold rawOperand
  split <;> simp_all

theorem rawOperand_eq_error {fetch : Int → Option Int} {pc : Int} {i : Nat} {e : DecodeError} :
    rawOperand fetch pc i = .error e ↔
      fetch (pc + 1 + (i : Int)) = none ∧ e = .operandOutOfBounds (pc + 1 + (i : Int)) := by
  unfold rawOperand
  split <;> simp_all [eq_comm]

/-- The operand cells `pc + 1 .. pc + n` hold the listed words. -/
def cellsAt (fetch : Int → Option Int) (pc : Int) (l : List Int) : Prop :=
  ∀ k (h : k < l.length), fetch (pc + 1 + (k : Int)) = some l[k]

/-- The first of the `n` operand cells outside memory is operand `j`'s. -/
def firstMissing (fetch : Int → Option Int) (pc : Int) (n j : Nat) : Prop :=
  j < n ∧ fetch (pc + 1 + (j : Int)) = none ∧ ∀ i < j, fetch (pc + 1 + (i : Int)) ≠ none

theorem decodeF1_eq_ok {fetch : Int → Option Int} {pc : Int} {mk : Int → Instr} {i : Instr} :
    decodeF1 fetch pc mk = .ok i ↔ ∃ x, cellsAt fetch pc [x] ∧ i = mk x := by
  unfold decodeF1
  rcases h0 : rawOperand fetch pc 0 with e | x
  · have := (rawOperand_eq_error.1 h0).1
    simp [bind, Except.bind, cellsAt] at this ⊢
    simp [this]
  · have := rawOperand_eq_ok.1 h0
    simp [bind, Except.bind, pure, Except.pure, cellsAt] at this ⊢
    simp [this, eq_comm]

theorem decodeF1_eq_error {fetch : Int → Option Int} {pc : Int} {mk : Int → Instr} {e : DecodeError} :
    decodeF1 fetch pc mk = .error e ↔ ∃ j, firstMissing fetch pc 1 j ∧ e = .operandOutOfBounds (pc + 1 + (j : Int)) := by
  unfold decodeF1
  rcases h0 : rawOperand fetch pc 0 with e' | x
  · obtain ⟨hn, rfl⟩ := rawOperand_eq_error.1 h0
    simp only [bind, Except.bind, Except.error.injEq]
    constructor
    · rintro rfl
      exact ⟨0, ⟨by omega, hn, by simp⟩, rfl⟩
    · rintro ⟨j, ⟨hj, -⟩, rfl⟩
      obtain rfl : j = 0 := by omega
      rfl
  · have h := rawOperand_eq_ok.1 h0
    simp only [bind, Except.bind, pure, Except.pure, reduceCtorEq, false_iff]
    rintro ⟨j, ⟨hj, hn, -⟩, -⟩
    obtain rfl : j = 0 := by omega
    exact nomatch h.symm.trans hn

theorem decodeF2_eq_ok {fetch : Int → Option Int} {pc : Int} {mk : Int → Int → Instr} {i : Instr} :
    decodeF2 fetch pc mk = .ok i ↔ ∃ x y, cellsAt fetch pc [x, y] ∧ i = mk x y := by
  have cells : ∀ x y, cellsAt fetch pc [x, y] ↔ fetch (pc + 1 + (0 : Nat)) = some x ∧ fetch (pc + 1 + (1 : Nat)) = some y := by
    intro x y
    constructor
    · exact fun h => ⟨h 0 (by simp), h 1 (by simp)⟩
    · rintro ⟨h0, h1⟩ k hk
      match k, hk with
      | 0, _ => exact h0
      | 1, _ => exact h1
  unfold decodeF2
  rcases h0 : rawOperand fetch pc 0 with e | x
  · have := (rawOperand_eq_error.1 h0).1
    simp [bind, Except.bind, cells] at this ⊢
    simp [this]
  rcases h1 : rawOperand fetch pc 1 with e | y
  · have := (rawOperand_eq_error.1 h1).1
    simp [bind, Except.bind, cells] at this ⊢
    simp [this]
  have g0 := rawOperand_eq_ok.1 h0
  have g1 := rawOperand_eq_ok.1 h1
  simp [bind, Except.bind, pure, Except.pure, cells] at g0 g1 ⊢
  simp [g0, g1, eq_comm]

theorem decodeF2_eq_error {fetch : Int → Option Int} {pc : Int} {mk : Int → Int → Instr} {e : DecodeError} :
    decodeF2 fetch pc mk = .error e ↔ ∃ j, firstMissing fetch pc 2 j ∧ e = .operandOutOfBounds (pc + 1 + (j : Int)) := by
  unfold decodeF2
  rcases h0 : rawOperand fetch pc 0 with e' | x
  · obtain ⟨hn, rfl⟩ := rawOperand_eq_error.1 h0
    simp only [bind, Except.bind, Except.error.injEq]
    constructor
    · rintro rfl
      exact ⟨0, ⟨by omega, hn, by simp⟩, rfl⟩
    · rintro ⟨j, ⟨hj, -, hlt⟩, rfl⟩
      rcases Nat.eq_zero_or_pos j with rfl | hp
      · rfl
      · exact absurd hn (hlt 0 hp)
  have g0 := rawOperand_eq_ok.1 h0
  rcases h1 : rawOperand fetch pc 1 with e' | y
  · obtain ⟨hn, rfl⟩ := rawOperand_eq_error.1 h1
    simp only [bind, Except.bind, Except.error.injEq]
    constructor
    · rintro rfl
      refine ⟨1, ⟨by omega, hn, fun i hi => ?_⟩, rfl⟩
      obtain rfl : i = 0 := by omega
      exact fun hq => nomatch g0.symm.trans hq
    · rintro ⟨j, ⟨hj, hjn, -⟩, rfl⟩
      match j, hj with
      | 0, _ => exact nomatch g0.symm.trans hjn
      | 1, _ => rfl
  have g1 := rawOperand_eq_ok.1 h1
  simp only [bind, Except.bind, pure, Except.pure, reduceCtorEq, false_iff]
  rintro ⟨j, ⟨hj, hjn, -⟩, -⟩
  match j, hj with
  | 0, _ => exact nomatch g0.symm.trans hjn
  | 1, _ => exact nomatch g1.symm.trans hjn

theorem decodeF3_eq_ok {fetch : Int → Option Int} {pc : Int} {mk : Int → Int → Int → Instr} {i : Instr} :
    decodeF3 fetch pc mk = .ok i ↔ ∃ x y z, cellsAt fetch pc [x, y, z] ∧ i = mk x y z := by
  have cells : ∀ x y z, cellsAt fetch pc [x, y, z] ↔
      fetch (pc + 1 + (0 : Nat)) = some x ∧ fetch (pc + 1 + (1 : Nat)) = some y ∧ fetch (pc + 1 + (2 : Nat)) = some z := by
    intro x y z
    constructor
    · exact fun h => ⟨h 0 (by simp), h 1 (by simp), h 2 (by simp)⟩
    · rintro ⟨h0, h1, h2⟩ k hk
      match k, hk with
      | 0, _ => exact h0
      | 1, _ => exact h1
      | 2, _ => exact h2
  unfold decodeF3
  rcases h0 : rawOperand fetch pc 0 with e | x
  · have := (rawOperand_eq_error.1 h0).1
    simp [bind, Except.bind, cells] at this ⊢
    simp [this]
  rcases h1 : rawOperand fetch pc 1 with e | y
  · have := (rawOperand_eq_error.1 h1).1
    simp [bind, Except.bind, cells] at this ⊢
    simp [this]
  rcases h2 : rawOperand fetch pc 2 with e | z
  · have := (rawOperand_eq_error.1 h2).1
    simp [bind, Except.bind, cells] at this ⊢
    simp [this]
  have g0 := rawOperand_eq_ok.1 h0
  have g1 := rawOperand_eq_ok.1 h1
  have g2 := rawOperand_eq_ok.1 h2
  simp [bind, Except.bind, pure, Except.pure, cells] at g0 g1 g2 ⊢
  simp [g0, g1, g2, eq_comm]

theorem decodeF3_eq_error {fetch : Int → Option Int} {pc : Int} {mk : Int → Int → Int → Instr} {e : DecodeError} :
    decodeF3 fetch pc mk = .error e ↔ ∃ j, firstMissing fetch pc 3 j ∧ e = .operandOutOfBounds (pc + 1 + (j : Int)) := by
  unfold decodeF3
  rcases h0 : rawOperand fetch pc 0 with e' | x
  · obtain ⟨hn, rfl⟩ := rawOperand_eq_error.1 h0
    simp only [bind, Except.bind, Except.error.injEq]
    constructor
    · rintro rfl
      exact ⟨0, ⟨by omega, hn, by simp⟩, rfl⟩
    · rintro ⟨j, ⟨hj, -, hlt⟩, rfl⟩
      rcases Nat.eq_zero_or_pos j with rfl | hp
      · rfl
      · exact absurd hn (hlt 0 hp)
  have g0 := rawOperand_eq_ok.1 h0
  rcases h1 : rawOperand fetch pc 1 with e' | y
  · obtain ⟨hn, rfl⟩ := rawOperand_eq_error.1 h1
    simp only [bind, Except.bind, Except.error.injEq]
    constructor
    · rintro rfl
      refine ⟨1, ⟨by omega, hn, fun i hi => ?_⟩, rfl⟩
      obtain rfl : i = 0 := by omega
      exact fun hq => nomatch g0.symm.trans hq
    · rintro ⟨j, ⟨hj, hjn, hlt⟩, rfl⟩
      match j, hj with
      | 0, _ => exact nomatch g0.symm.trans hjn
      | 1, _ => rfl
      | 2, _ => exact absurd hn (hlt 1 (by omega))
  have g1 := rawOperand_eq_ok.1 h1
  rcases h2 : rawOperand fetch pc 2 with e' | z
  · obtain ⟨hn, rfl⟩ := rawOperand_eq_error.1 h2
    simp only [bind, Except.bind, Except.error.injEq]
    constructor
    · rintro rfl
      refine ⟨2, ⟨by omega, hn, fun i hi => ?_⟩, rfl⟩
      match i, hi with
      | 0, _ => exact fun hq => nomatch g0.symm.trans hq
      | 1, _ => exact fun hq => nomatch g1.symm.trans hq
    · rintro ⟨j, ⟨hj, hjn, -⟩, rfl⟩
      match j, hj with
      | 0, _ => exact nomatch g0.symm.trans hjn
      | 1, _ => exact nomatch g1.symm.trans hjn
      | 2, _ => rfl
  have g2 := rawOperand_eq_ok.1 h2
  simp only [bind, Except.bind, pure, Except.pure, reduceCtorEq, false_iff]
  rintro ⟨j, ⟨hj, hjn, -⟩, -⟩
  match j, hj with
  | 0, _ => exact nomatch g0.symm.trans hjn
  | 1, _ => exact nomatch g1.symm.trans hjn
  | 2, _ => exact nomatch g2.symm.trans hjn

/-! ### The header -/

theorem operandMode_unused {k : Kind} {h i : Nat} (hi : k.operandCount ≤ i) : operandMode k h i = some .position :=
  if_neg (by omega)

theorem operandMode_used {k : Kind} {h i : Nat} (hi : i < k.operandCount) :
    operandMode k h i = modeOf (modeDigit h i) :=
  if_pos hi

/-- A header decodes exactly where it is non-negative, its opcode is known and every used mode digit is legal. -/
theorem decodeHeader_eq_ok {v : Int} {h : Header} :
    decodeHeader v = .ok h ↔
      0 ≤ v ∧ kindOf (opcodeOf v.toNat) = some h.kind ∧ operandMode h.kind v.toNat 0 = some h.mode0 ∧
        operandMode h.kind v.toNat 1 = some h.mode1 ∧ operandMode h.kind v.toNat 2 = some h.mode2 := by
  unfold decodeHeader
  split
  · next hv => simp [show ¬0 ≤ v by omega]
  next hv =>
  split
  · next hk => simp [hk]
  next k hk =>
  obtain ⟨k', m0', m1', m2'⟩ := h
  split
  · next m0 m1 m2 h0 h1 h2 =>
    simp only [Except.ok.injEq, Header.mk.injEq]
    constructor
    · rintro ⟨rfl, rfl, rfl, rfl⟩
      exact ⟨by omega, hk, h0, h1, h2⟩
    · rintro ⟨-, hk', h0', h1', h2'⟩
      obtain rfl : k = k' := by simpa [hk] using hk'
      simp_all
  · next hno =>
    simp only [reduceCtorEq, false_iff]
    rintro ⟨-, hk', h0', h1', h2'⟩
    obtain rfl : k = k' := by simpa [hk] using hk'
    exact hno _ _ _ h0' h1' h2'

/-- A header that does not decode gives one of the three names, with the whole header word. -/
theorem decodeHeader_eq_error {v : Int} {e : DecodeError} (h : decodeHeader v = .error e) :
    (v < 0 ∧ e = .negativeHeader v) ∨
    (0 ≤ v ∧ kindOf (opcodeOf v.toNat) = none ∧ e = .unknownOpcode v) ∨
    (0 ≤ v ∧ (∃ k, kindOf (opcodeOf v.toNat) = some k) ∧ e = .illegalModeDigit v) := by
  unfold decodeHeader at h
  split at h
  · next hv => exact .inl ⟨hv, by simpa [eq_comm] using h⟩
  next hv =>
  split at h
  · next hk => exact .inr (.inl ⟨by omega, hk, by simpa [eq_comm] using h⟩)
  next k hk =>
  split at h
  · cases h
  · exact .inr (.inr ⟨by omega, ⟨k, hk⟩, by simpa [eq_comm] using h⟩)

/-! ### The whole decoder -/

/-- A decoded instruction has the header's kind, and its raw values are the operand cells. -/
theorem decodeOperands_eq_ok {fetch : Int → Option Int} {pc : Int} {h : Header} {i : Instr}
    (hi : decodeOperands fetch pc h = .ok i) : i.kind = h.kind ∧ cellsAt fetch pc i.raws := by
  obtain ⟨k, m0, m1, m2⟩ := h
  cases k <;> simp only [decodeOperands] at hi
  case inp | out =>
    obtain ⟨x, hc, rfl⟩ := decodeF1_eq_ok.1 hi
    exact ⟨rfl, hc⟩
  case jt | jf =>
    obtain ⟨x, y, hc, rfl⟩ := decodeF2_eq_ok.1 hi
    exact ⟨rfl, hc⟩
  case hlt =>
    cases hi
    exact ⟨rfl, fun k hk => absurd hk (Nat.not_lt_zero k)⟩
  all_goals
    obtain ⟨x, y, z, hc, rfl⟩ := decodeF3_eq_ok.1 hi
    exact ⟨rfl, hc⟩

/-- Operand assembly fails exactly at the first operand cell outside memory. -/
theorem decodeOperands_eq_error {fetch : Int → Option Int} {pc : Int} {h : Header} {e : DecodeError} :
    decodeOperands fetch pc h = .error e ↔
      ∃ j, firstMissing fetch pc h.kind.operandCount j ∧ e = .operandOutOfBounds (pc + 1 + (j : Int)) := by
  obtain ⟨k, m0, m1, m2⟩ := h
  cases k <;> simp only [decodeOperands, Kind.operandCount]
  case inp | out => exact decodeF1_eq_error
  case jt | jf => exact decodeF2_eq_error
  case hlt => simp [firstMissing]
  all_goals exact decodeF3_eq_error

theorem Instr.raws_length (i : Instr) : i.raws.length = i.kind.operandCount := by cases i <;> rfl

theorem decode_eq_ok {fetch : Int → Option Int} {pc : Int} {i : Instr} :
    decode fetch pc = .ok i ↔
      ∃ v h, fetch pc = some v ∧ decodeHeader v = .ok h ∧ decodeOperands fetch pc h = .ok i := by
  unfold decode
  rcases hf : fetch pc with _ | v
  · simp
  rcases hh : decodeHeader v with e | h <;> simp [hh]

/-- What a successful decode tells of the cells it read. -/
theorem cells_of_decode {fetch : Int → Option Int} {pc : Int} {i : Instr} (h : decode fetch pc = .ok i) :
    ∃ v, fetch pc = some v ∧ 0 ≤ v ∧ kindOf (opcodeOf v.toNat) = some i.kind ∧ cellsAt fetch pc i.raws := by
  obtain ⟨v, hd, hf, hh, ho⟩ := decode_eq_ok.1 h
  obtain ⟨hk, hc⟩ := decodeOperands_eq_ok ho
  obtain ⟨h0, hkind, -⟩ := decodeHeader_eq_ok.1 hh
  exact ⟨v, hf, h0, hk ▸ hkind, hc⟩

/-- Why a decode fails: the fetch, the header, or the first operand cell outside memory. -/
theorem decode_eq_error {fetch : Int → Option Int} {pc : Int} {e : DecodeError} :
    decode fetch pc = .error e ↔
      (fetch pc = none ∧ e = .fetchOutOfBounds pc) ∨
      (∃ v, fetch pc = some v ∧ decodeHeader v = .error e) ∨
      (∃ v h j, fetch pc = some v ∧ decodeHeader v = .ok h ∧ firstMissing fetch pc h.kind.operandCount j ∧
        e = .operandOutOfBounds (pc + 1 + (j : Int))) := by
  unfold decode
  rcases hf : fetch pc with _ | v
  · simp [eq_comm]
  rcases hh : decodeHeader v with e' | h
  · simp [hh]
  · simp [hh, decodeOperands_eq_error]

end Sys2Proof
end

