-- ==== Sys2Proof/Laws/PerInstr.lean ====
section
/-!
SUPPORT. Per-instruction laws about the syntax: the shape of an instruction's cells.
-/

namespace Sys2Proof.Laws.EncodingShape

/-- The cells of a well-formed instruction are as many as its size says (30_encoding.md R60) and all are words, the
canonical header included. -/
def Statement (i : Instr) : Prop :=
  (encode i).length = i.size ∧
    ∀ c : Config, c.legal = true → i.wellFormed c = true → ∀ w ∈ encode i, c.isWord w = true

theorem digit_le (m : Mode) : m.digit ≤ 1 := by cases m <;> decide

/-- A header is a small non-negative integer, so it is a word of every legal width. -/
theorem isWord_headerWord {c : Config} (hl : c.legal = true) (k : Kind) {m0 m1 m2 : Nat} (h0 : m0 ≤ 1) (h1 : m1 ≤ 1)
    (h2 : m2 ≤ 1) : c.isWord (headerWord k m0 m1 m2) = true := by
  have hk : k.opcode ≤ 99 := by cases k <;> decide
  apply Config.isWord_small hl <;> unfold headerWord <;> omega

theorem statement_of {i : Instr} (hlen : (encode i).length = i.size)
    (hh : ∀ c : Config, c.legal = true → c.isWord i.header = true) : Statement i := by
  refine ⟨hlen, fun c hl hw w hm => ?_⟩
  rcases List.mem_cons.1 hm with rfl | hm
  · exact hh c hl
  · exact List.all_eq_true.1 hw w hm

theorem add (a b : Operand) (d : Target) : Statement (.add a b d) :=
  statement_of rfl fun _ hl => isWord_headerWord hl _ (digit_le _) (digit_le _) (digit_le _)

theorem mul (a b : Operand) (d : Target) : Statement (.mul a b d) :=
  statement_of rfl fun _ hl => isWord_headerWord hl _ (digit_le _) (digit_le _) (digit_le _)

theorem inp (d : Target) : Statement (.inp d) :=
  statement_of rfl fun _ hl => isWord_headerWord hl _ (digit_le _) (by decide) (by decide)

theorem out (a : Operand) : Statement (.out a) :=
  statement_of rfl fun _ hl => isWord_headerWord hl _ (digit_le _) (by decide) (by decide)

theorem jt (a b : Operand) : Statement (.jt a b) :=
  statement_of rfl fun _ hl => isWord_headerWord hl _ (digit_le _) (digit_le _) (by decide)

theorem jf (a b : Operand) : Statement (.jf a b) :=
  statement_of rfl fun _ hl => isWord_headerWord hl _ (digit_le _) (digit_le _) (by decide)

theorem lt (a b : Operand) (d : Target) : Statement (.lt a b d) :=
  statement_of rfl fun _ hl => isWord_headerWord hl _ (digit_le _) (digit_le _) (digit_le _)

theorem eq (a b : Operand) (d : Target) : Statement (.eq a b d) :=
  statement_of rfl fun _ hl => isWord_headerWord hl _ (digit_le _) (digit_le _) (digit_le _)

theorem hlt : Statement .hlt :=
  statement_of rfl fun _ hl => isWord_headerWord hl _ (by decide) (by decide) (by decide)

end Sys2Proof.Laws.EncodingShape
end

