-- ==== Sys2Proof/Laws/Stepping.lean ====
section
/-!
SUPPORT. Everything exec and step can do, said once: the effect of an instruction that completes, the fault of one that
does not, and the two inversion lemmas every later proof goes through.
-/

namespace Sys2Proof.Machine

/-- The state `t` that instruction `i` makes of `s` where it completes. -/
def Effect (i : Instr) (s t : State) : Prop :=
  match i with
  | .add a b d => ∃ x y r, src s a = .ok x ∧ src s b = .ok y ∧ narrow s.config (x + y) = .ok r ∧
      s.mem.inb (dest s 2 d) = true ∧ t = (s.store (dest s 2 d) r).advance 4
  | .mul a b d => ∃ x y r, src s a = .ok x ∧ src s b = .ok y ∧ narrow s.config (x * y) = .ok r ∧
      s.mem.inb (dest s 2 d) = true ∧ t = (s.store (dest s 2 d) r).advance 4
  | .lt a b d => ∃ x y, src s a = .ok x ∧ src s b = .ok y ∧
      s.mem.inb (dest s 2 d) = true ∧ t = (s.store (dest s 2 d) (lessThan x y)).advance 4
  | .eq a b d => ∃ x y, src s a = .ok x ∧ src s b = .ok y ∧
      s.mem.inb (dest s 2 d) = true ∧ t = (s.store (dest s 2 d) (equals x y)).advance 4
  | .inp d => ∃ v rest, s.inQ = v :: rest ∧ s.mem.inb (dest s 0 d) = true ∧
      t = (s.store (dest s 0 d) v).popInput.advance 2
  | .out a => ∃ v, src s a = .ok v ∧ t = (s.appendOutput v).advance 2
  | .jt a b => ∃ c p, src s a = .ok c ∧ src s b = .ok p ∧ t = if c ≠ 0 then s.setPc p else s.advance 3
  | .jf a b => ∃ c p, src s a = .ok c ∧ src s b = .ok p ∧ t = if c = 0 then s.setPc p else s.advance 3
  | .hlt => t = s.halt

/-- The fault `e` that instruction `i` raises in `s`, in the order of 40_execution_cycle.md R86. -/
def Raises (i : Instr) (s : State) (e : Error) : Prop :=
  match i with
  | .add a b d => src s a = .error e ∨ (∃ x, src s a = .ok x ∧ src s b = .error e) ∨
      (∃ x y, src s a = .ok x ∧ src s b = .ok y ∧ narrow s.config (x + y) = .error e) ∨
      (∃ x y r, src s a = .ok x ∧ src s b = .ok y ∧ narrow s.config (x + y) = .ok r ∧
        s.mem.inb (dest s 2 d) = false ∧ e = .outOfBounds (dest s 2 d))
  | .mul a b d => src s a = .error e ∨ (∃ x, src s a = .ok x ∧ src s b = .error e) ∨
      (∃ x y, src s a = .ok x ∧ src s b = .ok y ∧ narrow s.config (x * y) = .error e) ∨
      (∃ x y r, src s a = .ok x ∧ src s b = .ok y ∧ narrow s.config (x * y) = .ok r ∧
        s.mem.inb (dest s 2 d) = false ∧ e = .outOfBounds (dest s 2 d))
  | .lt a b d | .eq a b d => src s a = .error e ∨ (∃ x, src s a = .ok x ∧ src s b = .error e) ∨
      (∃ x y, src s a = .ok x ∧ src s b = .ok y ∧ s.mem.inb (dest s 2 d) = false ∧ e = .outOfBounds (dest s 2 d))
  | .inp d => (s.inQ = [] ∧ e = .inputStarved) ∨
      (s.inQ ≠ [] ∧ s.mem.inb (dest s 0 d) = false ∧ e = .outOfBounds (dest s 0 d))
  | .out a => src s a = .error e
  | .jt a b | .jf a b => src s a = .error e ∨ ∃ c, src s a = .ok c ∧ src s b = .error e
  | .hlt => False

theorem commit_split {s t : State} {r : Except Error State} {P : State → Prop} {Q : Error → Prop}
    (ok : ∀ t, r = .ok t ↔ P t) (error : ∀ e, r = .error e ↔ Q e) :
    s.commit r = .next t ↔ P t ∨ ∃ e, Q e ∧ t = s.raise e := by
  rw [State.commit_eq_next, ok]
  simp only [error]

/-- exec answers a next state always, and this is what it is. -/
theorem exec_eq_next {i : Instr} {s t : State} :
    exec i s = .next t ↔ Effect i s t ∨ ∃ e, Raises i s e ∧ t = s.raise e := by
  cases i with
  | add a b d => exact commit_split (fun _ => binaryResult_eq_ok) fun _ => binaryResult_eq_error
  | mul a b d => exact commit_split (fun _ => binaryResult_eq_ok) fun _ => binaryResult_eq_error
  | lt a b d => exact commit_split (fun _ => by simp [binaryResult_eq_ok, Effect]) fun _ => by simp [binaryResult_eq_error, Raises]
  | eq a b d => exact commit_split (fun _ => by simp [binaryResult_eq_ok, Effect]) fun _ => by simp [binaryResult_eq_error, Raises]
  | inp d => exact commit_split (fun _ => readInput_eq_ok) fun _ => readInput_eq_error
  | out a => exact commit_split (fun _ => writeOutput_eq_ok) fun _ => writeOutput_eq_error
  | jt a b => exact commit_split (fun _ => by simp [conditionalJump_eq_ok, Effect, isZero]) fun _ => conditionalJump_eq_error
  | jf a b => exact commit_split (fun _ => by simp [conditionalJump_eq_ok, Effect, isZero]) fun _ => conditionalJump_eq_error
  | hlt => simp [exec, execHlt, Effect, Raises, eq_comm]

theorem exec_of_effect {i : Instr} {s t : State} (h : Effect i s t) : exec i s = .next t :=
  exec_eq_next.2 (.inl h)

theorem exec_of_raises {i : Instr} {s : State} {e : Error} (h : Raises i s e) : exec i s = .next (s.raise e) :=
  exec_eq_next.2 (.inr ⟨e, h, rfl⟩)

/-- Everything a step can do: on a RUNNING instance a failed decode, an instruction's fault, or its effect. -/
theorem step_eq_next {s t : State} :
    step s = .next t ↔ s.runState = .running ∧
      ((∃ e, s.decodeNext = .error e ∧ t = s.raise (faultOfDecode e)) ∨
       ∃ i, s.decodeNext = .ok i ∧ (Effect i s t ∨ ∃ e, Raises i s e ∧ t = s.raise e)) := by
  unfold step
  rcases hr : s.runState
  · rcases hd : s.decodeNext with e | i
    · simp [eq_comm]
    · simp [exec_eq_next]
  all_goals simp

/-- A terminal instance has no step (40_execution_cycle.md R80). -/
theorem step_ne_next_of_not_running {s t : State} (h : s.runState ≠ .running) : step s ≠ .next t :=
  fun hs => h (step_eq_next.1 hs).1

/-! ### The frame of a completed instruction, once -/

/-- What no completed instruction changes, and the one cell it may. -/
theorem frame_of_effect {i : Instr} {s t : State} (h : Effect i s t) :
    t.config = s.config ∧ t.mem.len = s.mem.len ∧ t.errKind = s.errKind ∧ t.errInfo = s.errInfo ∧
      ∀ b, resultAddress s i ≠ some b → t.mem.read b = s.mem.read b := by
  cases i with
  | add a b d | mul a b d =>
    obtain ⟨x, y, r, -, -, -, hi, rfl⟩ := h
    exact ⟨rfl, rfl, rfl, rfl, fun c hc => Memory.read_write_ne r hi fun he => hc (he ▸ rfl)⟩
  | lt a b d | eq a b d =>
    obtain ⟨x, y, -, -, hi, rfl⟩ := h
    exact ⟨rfl, rfl, rfl, rfl, fun c hc => Memory.read_write_ne _ hi fun he => hc (he ▸ rfl)⟩
  | inp d =>
    obtain ⟨v, rest, -, hi, rfl⟩ := h
    exact ⟨rfl, rfl, rfl, rfl, fun c hc => Memory.read_write_ne _ hi fun he => hc (he ▸ rfl)⟩
  | out a =>
    obtain ⟨v, -, rfl⟩ := h
    exact ⟨rfl, rfl, rfl, rfl, fun _ _ => rfl⟩
  | jt a b | jf a b =>
    obtain ⟨c, p, -, -, rfl⟩ := h
    split <;> exact ⟨rfl, rfl, rfl, rfl, fun _ _ => rfl⟩
  | hlt =>
    cases h
    exact ⟨rfl, rfl, rfl, rfl, fun _ _ => rfl⟩

/-- A completed instruction other than halt leaves the status and the parameters as they were. -/
theorem sameStatus_of_effect {i : Instr} {s t : State} (h : Effect i s t) (hi : i ≠ .hlt) : SameStatus s t := by
  obtain ⟨hc, -, hk, hn, -⟩ := frame_of_effect h
  refine ⟨hc, ?_, hk, hn⟩
  cases i with
  | add a b d | mul a b d =>
    obtain ⟨_, _, _, _, _, _, _, rfl⟩ := h
    rfl
  | lt a b d | eq a b d =>
    obtain ⟨_, _, _, _, _, rfl⟩ := h
    rfl
  | inp d =>
    obtain ⟨_, _, _, _, rfl⟩ := h
    rfl
  | out a =>
    obtain ⟨_, _, rfl⟩ := h
    rfl
  | jt a b | jf a b =>
    obtain ⟨_, _, _, _, rfl⟩ := h
    split <;> rfl
  | hlt => exact absurd rfl hi

/-- A completed instruction other than OUT leaves the output sequence as it was. -/
theorem outQ_of_effect {i : Instr} {s t : State} (h : Effect i s t) (hi : ∀ a, i ≠ .out a) : t.outQ = s.outQ := by
  cases i with
  | add a b d | mul a b d =>
    obtain ⟨_, _, _, _, _, _, _, rfl⟩ := h
    rfl
  | lt a b d | eq a b d =>
    obtain ⟨_, _, _, _, _, rfl⟩ := h
    rfl
  | inp d =>
    obtain ⟨_, _, _, _, rfl⟩ := h
    rfl
  | out a => exact absurd rfl (hi a)
  | jt a b | jf a b =>
    obtain ⟨_, _, _, _, rfl⟩ := h
    split <;> rfl
  | hlt =>
    cases h
    rfl

/-- A completed instruction other than IN leaves the pending inputs as they were. -/
theorem inQ_of_effect {i : Instr} {s t : State} (h : Effect i s t) (hi : ∀ d, i ≠ .inp d) : t.inQ = s.inQ := by
  cases i with
  | add a b d | mul a b d =>
    obtain ⟨_, _, _, _, _, _, _, rfl⟩ := h
    rfl
  | lt a b d | eq a b d =>
    obtain ⟨_, _, _, _, _, rfl⟩ := h
    rfl
  | inp d => exact absurd rfl (hi d)
  | out a =>
    obtain ⟨_, _, rfl⟩ := h
    rfl
  | jt a b | jf a b =>
    obtain ⟨_, _, _, _, rfl⟩ := h
    split <;> rfl
  | hlt =>
    cases h
    rfl

/-- Taking a fault changes the status alone. -/
theorem faultedFrom_raise (s : State) (e : Error) : FaultedFrom s (s.raise e) e :=
  ⟨rfl, rfl, rfl, rfl, rfl, rfl, rfl, rfl⟩

/-- A store to a cell of memory, as the claims say it. -/
theorem storedAt_of_write {s t : State} {a v : Int} (h : s.mem.inb a = true) (ht : t.mem = s.mem.write a v) :
    StoredAt s t a v where
  cell := by rw [ht, Memory.read_write_self v h]
  others b hb := by rw [ht, Memory.read_write_ne v h hb]
  len := by rw [ht, Memory.write_len]

/-- The faults an instruction can raise: an address outside memory, InputStarved, or Overflow. -/
theorem raises_cases {i : Instr} {s : State} {e : Error} (h : Raises i s e) :
    e = .overflow ∨ e = .inputStarved ∨ ∃ a, s.mem.inb a = false ∧ e = .outOfBounds a := by
  have source : ∀ {o}, src s o = .error e → ∃ a, s.mem.inb a = false ∧ e = .outOfBounds a :=
    fun ho => ⟨_, (src_eq_error.1 ho).2⟩
  cases i with
  | add a b d | mul a b d =>
    rcases h with h | ⟨_, _, h⟩ | ⟨_, _, _, _, h⟩ | ⟨_, _, _, _, _, _, h⟩
    · exact .inr (.inr (source h))
    · exact .inr (.inr (source h))
    · exact .inl (narrow_eq_error.1 h).2.2
    · exact .inr (.inr ⟨_, h⟩)
  | lt a b d | eq a b d =>
    rcases h with h | ⟨_, _, h⟩ | ⟨_, _, _, _, h⟩
    · exact .inr (.inr (source h))
    · exact .inr (.inr (source h))
    · exact .inr (.inr ⟨_, h⟩)
  | inp d =>
    rcases h with ⟨_, h⟩ | ⟨_, h⟩
    · exact .inr (.inl h)
    · exact .inr (.inr ⟨_, h⟩)
  | out a => exact .inr (.inr (source h))
  | jt a b | jf a b =>
    rcases h with h | ⟨_, _, h⟩
    · exact .inr (.inr (source h))
    · exact .inr (.inr (source h))
  | hlt => cases h

/-! ### Reset -/

/-- The memory of the reset state is in canonical form. -/
theorem State.reset_mem_wf : State.reset.mem.wf := Memory.wf_empty

/-- Reset with legal arguments (70_reset_and_hazards.md R180, R182). -/
theorem State.new_of_legal {c : Config} {image inputs : List Int} (h : legalReset c image inputs = true) :
    State.new c image inputs = .next { State.reset with config := c, mem := Memory.ofImage image, inQ := inputs } :=
  if_pos h

theorem State.new_of_illegal {c : Config} {image inputs : List Int} (h : legalReset c image inputs = false) :
    State.new c image inputs = .refused .illegalReset :=
  if_neg (by simp [h])

theorem legalReset_iff {c : Config} {image inputs : List Int} :
    legalReset c image inputs = true ↔ c.legal = true ∧ (∀ v ∈ image, c.isWord v = true) ∧
      (∀ v ∈ inputs, c.isWord v = true) ∧ c.fitsLength image.length = true := by
  simp [legalReset, and_assoc]

end Sys2Proof.Machine
end

