-- ==== Sys2Proof/Laws/RunCalls.lean ====
section
/-!
SUPPORT. What the host's run calls can do, said once: which arguments are legal, what a call makes of them, and that the
state a call leaves was reached by steps.
-/

namespace Sys2Proof.Machine

theorem legalInputs_iff {c : Config} {l : List Int} : Config.legalInputs c l = true ↔ ∀ v ∈ l, c.isWord v = true :=
  List.all_eq_true

/-- A call whose values are words appends them and runs (R185). -/
theorem runUntilOutputOrHalt_of_words {n : Nat} {l : List Int} {s : State} (h : ∀ v ∈ l, s.config.isWord v = true) :
    runUntilOutputOrHalt n l s = runUntilOutput n (s.appendInputs l) :=
  if_pos (legalInputs_iff.2 h)

/-- A call with a value that is no word is refused (log entry 16). -/
theorem runUntilOutputOrHalt_of_nonword {n : Nat} {l : List Int} {s : State}
    (h : ∃ v ∈ l, s.config.isWord v = false) :
    runUntilOutputOrHalt n l s = some (.refused .illegalInputs, s) := by
  obtain ⟨v, hv, hw⟩ := h
  exact if_neg fun hl => by simp [legalInputs_iff.1 hl v hv] at hw

theorem runUntilOutputOrHalt_nil (n : Nat) (s : State) : runUntilOutputOrHalt n [] s = runUntilOutput n s := by
  rw [runUntilOutputOrHalt_of_words (by simp), State.appendInputs, List.append_nil]

/-- The two things a call that answers can have done. -/
theorem runUntilOutputOrHalt_cases {n : Nat} {l : List Int} {s t : State} {r : PauseResult}
    (h : runUntilOutputOrHalt n l s = some (r, t)) :
    ((∀ v ∈ l, s.config.isWord v = true) ∧ runUntilOutput n (s.appendInputs l) = some (r, t)) ∨
      (r = .refused .illegalInputs ∧ t = s) := by
  unfold runUntilOutputOrHalt at h
  split at h
  · exact .inl ⟨legalInputs_iff.1 ‹_›, h⟩
  · cases h
    exact .inr ⟨rfl, rfl⟩

theorem Reaches.head {s t u : State} (h : step s = .next t) (r : Reaches t u) : Reaches s u := by
  induction r with
  | refl => exact .tail (.refl s) h
  | tail _ hs ih => exact .tail ih hs

theorem reaches_of_runUntilOutput {n : Nat} {s t : State} {r : PauseResult} (h : runUntilOutput n s = some (r, t)) :
    Reaches s t := by
  induction n generalizing s with
  | zero =>
    obtain ⟨_, _, he⟩ := Option.map_eq_some_iff.1 h
    cases he
    exact .refl _
  | succ n ih =>
    unfold runUntilOutput at h
    split at h
    · cases h
      exact .refl _
    · split at h
      case _ u hu =>
        split at h
        · cases h
          exact .tail (.refl s) hu
        all_goals exact .head hu (ih h)
      all_goals cases h

theorem reaches_of_runToCompletion {dump : Bool} {n : Nat} {s t : State} {r : CompletionResult}
    (h : runToCompletion dump n s = some (r, t)) : Reaches s t := by
  induction n generalizing s with
  | zero =>
    obtain ⟨_, _, he⟩ := Option.map_eq_some_iff.1 h
    cases he
    exact .refl _
  | succ n ih =>
    unfold runToCompletion at h
    split at h
    · cases h
      exact .refl _
    · split at h
      · exact .head ‹_› (ih h)
      all_goals cases h

/-- What every step keeps holds of whatever is reached. -/
theorem Reaches.keeps {P : State → Prop} (hstep : ∀ s t, P s → step s = .next t → P t) {s t : State}
    (h : Reaches s t) (hs : P s) : P t := by
  induction h with
  | refl => exact hs
  | tail _ hu ih => exact hstep _ _ ih hu

end Sys2Proof.Machine
end

