-- ==== Sys2Proof/Tests/Slice0.lean ====
section
/-!
SUPPORT. Tests. Expected results are those of spec/95_test_vectors.md (the vector's name stands in the comment) or hand
calculation from the rule named. The second half gives, for every obligation with hypotheses, a state and operands that
meet them.
-/

namespace Sys2Proof.Tests

open Sys2Proof Sys2Proof.Machine

/-- A fresh instance with the reference parameters, as reset makes it. -/
def machine (image inputs : List Int) : State := { State.reset with mem := Memory.ofImage image, inQ := inputs }

/-- The state an outcome goes on in, if it does. -/
def after (o : Host.Outcome State Fault Refusal) : Option State :=
  match o with
  | .next t => some t
  | _ => none

/-- Memory, pc and run state after one step. -/
def look (s : State) : Option (List Int × Int × RunState) := (after (step s)).map fun t => (t.mem.dump, t.pc, t.runState)

/-- The recorded fault and the pc after one step. -/
def fault (s : State) : Option (ErrKind × Int × Int) := (after (step s)).map fun t => (t.errKind, t.errInfo, t.pc)

/-- What one step makes of a state; the state itself where there is no step. -/
def next (s : State) : State := (after (step s)).getD s

def okInstr (l : List Int) : Option Instr := (decode (fetchFrom l) 0).toOption

/-! ### Well-formedness: each operand position is checked (2^63 is no word of 64 bits) -/

theorem test_wellFormed_ok :
    (Instr.add ⟨.position, 9223372036854775807⟩ ⟨.immediate, -9223372036854775808⟩ ⟨.immediate, 0⟩).wellFormed
      Config.reference = true := by decide

theorem test_illFormed_operand0 : (Instr.out ⟨.immediate, 9223372036854775808⟩).wellFormed Config.reference = false := by
  decide

theorem test_illFormed_operand1 :
    (Instr.jt ⟨.immediate, 0⟩ ⟨.immediate, -9223372036854775809⟩).wellFormed Config.reference = false := by decide

theorem test_illFormed_target :
    (Instr.lt ⟨.immediate, 0⟩ ⟨.immediate, 0⟩ ⟨.position, 9223372036854775808⟩).wellFormed Config.reference = false := by
  decide

theorem test_illFormed_input : (Instr.inp ⟨.position, 9223372036854775808⟩).wellFormed Config.reference = false := by
  decide

/-! ### Decoding: the headers of 95_test_vectors.md section 2.1, each digit written out -/

theorem test_decode_add : okInstr [11101, 2, 3, 0] =
    some (.add ⟨.immediate, 2⟩ ⟨.immediate, 3⟩ ⟨.immediate, 0⟩) := by decide

theorem test_decode_mul : okInstr [1002, 4, 3, 4, 33] =
    some (.mul ⟨.position, 4⟩ ⟨.immediate, 3⟩ ⟨.position, 4⟩) := by decide

theorem test_decode_in : okInstr [103, 3] = some (.inp ⟨.immediate, 3⟩) := by decide

theorem test_decode_out : okInstr [104, -5] = some (.out ⟨.immediate, -5⟩) := by decide

theorem test_decode_jt : okInstr [10005, 7, 8] = some (.jt ⟨.position, 7⟩ ⟨.position, 8⟩) := by decide

theorem test_decode_jf : okInstr [106, 1, 50] = some (.jf ⟨.immediate, 1⟩ ⟨.position, 50⟩) := by decide

theorem test_decode_lt : okInstr [10107, 1, 2, 0] =
    some (.lt ⟨.immediate, 1⟩ ⟨.position, 2⟩ ⟨.immediate, 0⟩) := by decide

theorem test_decode_eq : okInstr [8, 9, 10, 9] =
    some (.eq ⟨.position, 9⟩ ⟨.position, 10⟩ ⟨.position, 9⟩) := by decide

theorem test_decode_hlt : [99, 199, 299, 1099, 11199, 100099].all (fun v => okInstr [v] = some .hlt) = true := by decide

theorem test_decode_illegal : [0, 9, 10, 55, 98, 100, 1100, 201, 20001, 2105, 204, 203, -1, -99].all
    (fun v => (okInstr [v, 0, 0, 0]).isNone) = true := by decide

/-- Cells as one number of 64-bit cells: OUT #-1, with the operand in two's complement. -/
theorem test_table_word : decodeTableWord 128 (104 + 2 ^ 64 * (2 ^ 64 - 1)) = some (.out ⟨.immediate, -1⟩) := by decide

/-- A placed instruction is the next to run: OUT [0] emits its own header (vector O2). -/
theorem test_withFetchWord : (after (step (State.reset.withFetchWord 8 4))).map (·.outQ) = some [4] := by decide

/-- With nothing placed the first step of the empty machine faults (vector X7). -/
theorem test_reset_step : fault State.reset = some (.outOfBounds, 0, 0) := by decide

/-! ### The instructions -/

/-- Vectors A3, A13 and A14: Overflow; operand 0 before operand 1; Overflow before the result address. -/
theorem test_add_faults :
    [[1101, 9223372036854775807, 1, 0, 99], [1, 5, 6, 0, 99], [1101, 9223372036854775807, 1, 9, 99]].map
      (fun m => fault (machine m [])) =
    [some (.overflow, 0, 0), some (.outOfBounds, 5, 0), some (.overflow, 0, 0)] := by decide

/-- Vector A8 under both values of WT_MODE1. -/
theorem test_add_target_mode1 :
    look (machine [11101, 2, 3, 0, 99] []) = some ([11101, 2, 3, 5, 99], 4, .running) ∧
    look { machine [11101, 2, 3, 0, 99] [] with config := { Config.reference with wtMode1 := .literal } } =
      some ([5, 2, 3, 0, 99], 4, .running) := by decide

/-- Source fixture S4 (R101) and vectors M1, M8: position and immediate, signs, the least word. -/
theorem test_mul_values :
    look (machine [1002, 4, 3, 4, 33] []) = some ([1002, 4, 3, 4, 99], 4, .running) ∧
    look (machine [1102, -3, 4, 0, 99] []) = some ([-12, -3, 4, 0, 99], 4, .running) ∧
    look (machine [1102, -9223372036854775808, 1, 0, 99] []) =
      some ([-9223372036854775808, -9223372036854775808, 1, 0, 99], 4, .running) := by decide

/-- Vector M4, and the same product under WRAP: 9223372037000250000 - 2^64 (R102). -/
theorem test_mul_overflow :
    fault (machine [1102, 3037000500, 3037000500, 0, 99] []) = some (.overflow, 0, 0) ∧
    look { machine [1102, 3037000500, 3037000500, 0, 99] [] with
        config := { Config.reference with overflow := .wrap } } =
      some ([-9223372036709301616, 3037000500, 3037000500, 0, 99], 4, .running) := by decide

/-- Vector I6, first step: the front is taken, the rest stays. -/
theorem test_in_front : (after (step (machine [3, 0, 3, 1, 99] [10, 20, 30]))).map
    (fun t => (t.mem.dump, t.pc, t.inQ)) = some ([10, 0, 3, 1, 99], 2, [20, 30]) := by decide

/-- Vectors I4, I5: a bad address keeps the input; the empty queue is checked first. -/
theorem test_in_faults :
    (after (step (machine [3, 3, 99] [1]))).map (fun t => (t.errKind, t.errInfo, t.inQ)) =
      some (.outOfBounds, 3, [1]) ∧
    fault (machine [3, 3, 99] []) = some (.inputStarved, 0, 0) := by decide

/-- Vectors O1 and O3. -/
theorem test_out_value : (after (step (machine [104, 77, 99] []))).map (fun t => (t.outQ, t.pc)) = some ([77], 2) := by
  decide

theorem test_out_fault : fault (machine [4, 3, 99] []) = some (.outOfBounds, 3, 0) := by decide

/-- Vectors J3 and J6, first steps: an indirect jump; a negative target is copied unchecked. -/
theorem test_jt_taken :
    look (machine [5, 7, 8, 99, 104, 9, 99, -2, 4] []) = some ([5, 7, 8, 99, 104, 9, 99, -2, 4], 4, .running) ∧
    look (machine [1105, 1, -1] []) = some ([1105, 1, -1], -1, .running) := by decide

/-- Vectors J2 and J4: not taken; operand 1 is resolved though the jump is not taken. -/
theorem test_jt_not_taken :
    look (machine [1105, 0, 4, 99] []) = some ([1105, 0, 4, 99], 3, .running) ∧
    fault (machine [105, 0, 50, 99] []) = some (.outOfBounds, 50, 0) := by decide

/-- Vectors K1 and K2, first steps. -/
theorem test_jf_zero : look (machine [1106, 0, 4, 99] []) = some ([1106, 0, 4, 99], 4, .running) := by decide

theorem test_jf_nonzero : look (machine [1106, 5, 4, 99] []) = some ([1106, 5, 4, 99], 3, .running) := by decide

/-- Vectors L1, L2, L3, L6, first cell after the step: signed order, no overflow. -/
theorem test_lt_values :
    [[1107, 3, 5, 0, 99], [1107, 5, 5, 0, 99], [1107, -1, 0, 0, 99],
      [1107, -9223372036854775808, 9223372036854775807, 0, 99]].map
      (fun m => (look (machine m [])).map fun r => r.1.head?) =
    [some (some 1), some (some 0), some (some 1), some (some 1)] := by decide

/-- Vector L8. -/
theorem test_lt_fault : fault (machine [1107, 1, 2, 5, 99] []) = some (.outOfBounds, 5, 0) := by decide

/-- Vectors E1, E2, E3. -/
theorem test_eq_values :
    [[1108, 5, 5, 0, 99], [1108, 5, -5, 0, 99], [8, 0, 0, 0, 99]].map
      (fun m => (look (machine m [])).map fun r => r.1.head?) =
    [some (some 1), some (some 0), some (some 1)] := by decide

/-- Vector E5. -/
theorem test_eq_fault : fault (machine [1108, 0, 0, -1, 99] []) = some (.outOfBounds, -1, 0) := by decide

/-- Vectors H1 and H4. -/
theorem test_hlt : look (machine [99] []) = some ([99], 0, .halted) := by decide

theorem test_hlt_negative : fault (machine [-99] []) = some (.invalidInstruction, -99, 0) := by decide

/-! ### Witnesses: hypotheses that can be met, at the edges of their ranges -/

theorem witness_EncodedInstructionDecodesBack :
    ∀ k : Nat, k < (Instr.eq ⟨.immediate, 1⟩ ⟨.immediate, -2⟩ ⟨.immediate, 3⟩).size →
      fetchFrom [11108, 1, -2, 3] (0 + (k : Int)) =
        (encode (.eq ⟨.immediate, 1⟩ ⟨.immediate, -2⟩ ⟨.immediate, 3⟩))[k]? := by decide

theorem witness_HeaderFieldsAreDecimalDigits :
    decodeHeader 11108 = .ok ⟨.eq, .immediate, .immediate, .immediate⟩ ∧
    decodeHeader 1104 = .ok ⟨.out, .immediate, .position, .position⟩ := ⟨rfl, rfl⟩

theorem witness_UnknownOpcode :
    [98, 100, 9, 0].all (fun v => decide ((machine [v] []).runState = .running ∧ (machine [v] []).mem.read 0 = some v ∧
      v % 100 ∉ [1, 2, 3, 4, 5, 6, 7, 8, 99])) = true := by decide

theorem witness_NegativeHeader : (machine [-1] []).mem.read (machine [-1] []).pc = some (-1) := by decide

theorem witness_BadMode :
    (machine [20001] []).mem.read (machine [20001] []).pc = some 20001 ∧
    kindOf ((20001 : Int).toNat % 100) = some .add ∧ 2 < Kind.operandCount .add ∧
    2 ≤ (20001 : Int).toNat / 10 ^ (2 + 2) % 10 ∧
    kindOf ((904 : Int).toNat % 100) = some .out ∧ 2 ≤ (904 : Int).toNat / 10 ^ (0 + 2) % 10 := by decide

theorem witness_UnusedHighDigits :
    fetchFrom [1, 0, 0, 0] 0 = some 1 ∧
    (fun a => if a = 0 then some 100001 else fetchFrom [1, 0, 0, 0] a) 0 = some 100001 ∧
    kindOf ((1 : Int).toNat % 100) = some .add ∧
    (1 : Int).toNat % 10 ^ (Kind.operandCount .add + 2) = (100001 : Int).toNat % 10 ^ (Kind.operandCount .add + 2) ∧
    decode (fetchFrom [1, 0, 0, 0]) 0 = .ok (.add ⟨.position, 0⟩ ⟨.position, 0⟩ ⟨.position, 0⟩) ∧
    ∀ a : Int, a ≠ 0 →
      (fun a => if a = 0 then some 100001 else fetchFrom [1, 0, 0, 0] a) a = fetchFrom [1, 0, 0, 0] a :=
  ⟨rfl, rfl, rfl, rfl, rfl, fun _ h => if_neg h⟩

theorem witness_UnusedHighDigits_halt :
    kindOf ((99 : Int).toNat % 100) = some .hlt ∧ (99 : Int).toNat % 10 ^ (0 + 2) = (199 : Int).toNat % 10 ^ (0 + 2) ∧
    decode (fetchFrom [99]) 0 = .ok .hlt := ⟨rfl, rfl, rfl⟩

theorem witness_DecoderReadsOnlyItsCells :
    fetchFrom [104, 77] 0 = fetchFrom [104, 77, 5] 0 ∧
    ∀ (v : Int) (k : Kind), fetchFrom [104, 77, 5] 0 = some v → kindOf (v.toNat % 100) = some k →
      ∀ j : Nat, j < k.operandCount → fetchFrom [104, 77] (0 + 1 + (j : Int)) = fetchFrom [104, 77, 5] (0 + 1 + (j : Int)) := by
  refine ⟨rfl, fun v k hv hk j hj => ?_⟩
  obtain rfl : (104 : Int) = v := Option.some.inj hv
  obtain rfl : Kind.out = k := Option.some.inj hk
  obtain rfl : j = 0 := Nat.lt_one_iff.1 hj
  rfl

theorem witness_SourceOperandModes :
    (machine [7, 8] []).mem.read 1 = some 8 ∧ ((machine [7, 8] []).mem.len : Int) ≤ 2 ∧ (-1 : Int) < 0 := by decide

theorem witness_WriteTargetAddress :
    State.reset.config.wtMode1 = .cell ∧
    ({ State.reset with config := { Config.reference with wtMode1 := .literal } } : State).config.wtMode1 = .literal := by
  decide

theorem witness_OutOfBounds_access :
    ((machine [7, 8] []).mem.len : Int) ≤ 2 ∧ (0 : Int) ≤ 1 ∧ (1 : Int) < ((machine [7, 8] []).mem.len : Int) := by decide

theorem witness_OutOfBounds_fetch :
    State.reset.runState = .running ∧ (State.reset.mem.len : Int) ≤ State.reset.pc ∧
    (next (machine [1105, 1, -1] [])).runState = .running ∧ (next (machine [1105, 1, -1] [])).pc < 0 := by decide

theorem witness_OutOfBounds_operandCell :
    (machine [1, 0, 0] []).mem.read 0 = some 1 ∧
    decodeHeader 1 = .ok ⟨.add, .position, .position, .position⟩ ∧ 2 < Kind.operandCount .add ∧
    (machine [1, 0, 0] []).pc + ((2 : Nat) : Int) < ((machine [1, 0, 0] []).mem.len : Int) ∧
    ((machine [1, 0, 0] []).mem.len : Int) ≤ (machine [1, 0, 0] []).pc + 1 + ((2 : Nat) : Int) :=
  ⟨rfl, rfl, by decide, by decide, by decide⟩

theorem witness_store :
    (machine [7, 8] []).memWrite 1 (-3) = .ok ((machine [7, 8] []).store 1 (-3)) ∧
    (machine [7, 8] []).memWrite 0 0 = .ok ((machine [7, 8] []).store 0 0) := ⟨rfl, rfl⟩

theorem witness_EqualReads :
    (Memory.ofImage [0, 5, 0]).wf ∧ ((Memory.ofImage [9, 5, 0]).write 0 0).wf ∧
    (Memory.ofImage [0, 5, 0]) = (Memory.ofImage [9, 5, 0]).write 0 0 := by decide

theorem witness_StepRunsDecoded :
    (machine [99] []).runState = .running ∧ (machine [99] []).decodeNext = .ok .hlt ∧
    (machine [0] []).decodeNext = .error (.unknownOpcode 0) := ⟨rfl, rfl, rfl⟩

theorem witness_StoredEncodingRuns :
    (machine [11107, 1, 2, 3] []).runState = .running ∧
    ∀ k : Nat, k < (Instr.lt ⟨.immediate, 1⟩ ⟨.immediate, 2⟩ ⟨.immediate, 3⟩).size →
      (machine [11107, 1, 2, 3] []).mem.read ((machine [11107, 1, 2, 3] []).pc + (k : Int)) =
        (encode (.lt ⟨.immediate, 1⟩ ⟨.immediate, 2⟩ ⟨.immediate, 3⟩))[k]? := by decide

theorem witness_Terminal :
    (next (machine [0] [])).runState = .faulted ∧ (next (machine [99] [])).runState = .halted ∧
    Reaches (next (machine [0] [])) (next (machine [0] [])) := ⟨by decide, by decide, .refl _⟩

theorem witness_steps :
    step (machine [104, 77, 99] []) = .next (next (machine [104, 77, 99] [])) ∧
    step (machine [3, 0, 99] []) = .next (next (machine [3, 0, 99] [])) ∧
    step (machine [1105, 1, 0] []) = .next (next (machine [1105, 1, 0] [])) := ⟨rfl, rfl, rfl⟩

/-- Vector A11: the ADD ends at N. -/
theorem witness_SequentialAdvance_end :
    step (machine [1101, 1, 1, 0] []) = .next (next (machine [1101, 1, 1, 0] [])) ∧
    (machine [1101, 1, 1, 0] []).decodeNext = .ok (.add ⟨.immediate, 1⟩ ⟨.immediate, 1⟩ ⟨.position, 0⟩) ∧
    (next (machine [1101, 1, 1, 0] [])).runState = .running ∧ (next (machine [1101, 1, 1, 0] [])).pc = 4 ∧
    ((next (machine [1101, 1, 1, 0] [])).mem.len : Int) = 4 := ⟨rfl, rfl, by decide, by decide, by decide⟩

theorem witness_SequentialAdvance_fault :
    step (machine [4, 3, 99] []) = .next (next (machine [4, 3, 99] [])) ∧
    (machine [4, 3, 99] []).decodeNext = .ok (.out ⟨.position, 3⟩) ∧
    (next (machine [4, 3, 99] [])).runState = .faulted := ⟨rfl, rfl, by decide⟩

/-- The greatest word as a sum, stored in the last cell; and a product stored over the header. -/
theorem witness_Arithmetic_completes :
    src (machine [0, 0, 0, 0, 9223372036854775806] []) ⟨.position, 4⟩ = .ok 9223372036854775806 ∧
    src (machine [0, 0, 0, 0, 9223372036854775806] []) ⟨.immediate, 1⟩ = .ok 1 ∧
    Config.reference.isWord (9223372036854775806 + 1) = true ∧ Config.reference.isWord (3037000499 * 3037000499) = true ∧
    (machine [0, 0, 0, 0, 9223372036854775806] []).mem.inb
      (dest (machine [0, 0, 0, 0, 9223372036854775806] []) 2 ⟨.position, 4⟩) = true ∧
    (machine [0, 0, 0, 0] []).mem.inb (dest (machine [0, 0, 0, 0] []) 2 ⟨.immediate, 9⟩) = true :=
  ⟨rfl, rfl, by decide, by decide, by decide, by decide⟩

theorem witness_Arithmetic_faults :
    (machine [0, 0] []).mem.inb 2 = false ∧ (machine [0, 0] []).mem.inb (-1) = false ∧
    src (machine [0, 0] []) ⟨.position, 1⟩ = .ok 0 ∧ Config.reference.isWord (9223372036854775807 + 1) = false ∧
    Config.reference.isWord (-9223372036854775808 * -1) = false ∧ Config.reference.overflow = .fault ∧
    Config.reference.isWord (0 + 0) = true ∧
    (machine [0, 0] []).mem.inb (dest (machine [0, 0] []) 2 ⟨.position, 2⟩) = false :=
  ⟨by decide, by decide, rfl, by decide, by decide, rfl, by decide, by decide⟩

theorem witness_Wrapped :
    ({ Config.reference with overflow := .wrap } : Config).legal = true ∧
    ({ Config.reference with overflow := .wrap } : Config).xlen = some 64 ∧
    src { machine [0] [] with config := { Config.reference with overflow := .wrap } } ⟨.immediate, 5⟩ = .ok 5 ∧
    (machine [0] []).mem.inb 0 = true ∧ (machine [0] []).mem.inb 1 = false :=
  ⟨by decide, rfl, rfl, by decide, by decide⟩

theorem witness_Commutes :
    exec (.add ⟨.position, 1⟩ ⟨.immediate, 5⟩ ⟨.position, 0⟩) (machine [1001, 1, 5, 0, 99] []) =
      .next (next (machine [1001, 1, 5, 0, 99] [])) ∧
    exec (.mul ⟨.position, 1⟩ ⟨.immediate, 5⟩ ⟨.position, 0⟩) (machine [1002, 1, 5, 0, 99] []) =
      .next (next (machine [1002, 1, 5, 0, 99] [])) ∧
    (next (machine [1001, 1, 5, 0, 99] [])).runState ≠ .faulted ∧
    (next (machine [1002, 1, 5, 0, 99] [])).runState ≠ .faulted := ⟨rfl, rfl, by decide, by decide⟩

/-- A fresh machine whose image and inputs are words meets the invariant; its four checks are what is left to decide. -/
theorem machine_inv (image inputs : List Int) (hm : (machine image inputs).mem.wf)
    (hl : Config.reference.fitsLength (machine image inputs).mem.len = true)
    (hw : (machine image inputs).mem.holdsWords Config.reference) (hi : ∀ v ∈ inputs, Config.reference.isWord v = true) :
    (machine image inputs).Inv where
  legal := (by decide : Config.reference.legal = true)
  memForm := hm
  memLength := hl
  memWords := hw
  pcWord := (by decide : Config.reference.isWord 0 = true)
  inWords := hi
  outWords v hv := nomatch hv
  infoWord := (by decide : Config.reference.isWord 0 = true)
  noFault _ := ⟨rfl, rfl⟩
  faultKind h := nomatch h
  plainInfo _ := rfl
  overflowOnly h := nomatch h

theorem witness_OverflowOnly :
    (machine [1101, 9223372036854775807, 1, 0] []).Inv ∧
    step (machine [1101, 9223372036854775807, 1, 0] []) = .next (next (machine [1101, 9223372036854775807, 1, 0] [])) ∧
    (next (machine [1101, 9223372036854775807, 1, 0] [])).errKind = .overflow :=
  ⟨machine_inv _ _ (by decide) (by decide) (by decide) (by decide), rfl, by decide⟩

theorem witness_Comparison :
    src (machine [7, 0, 4, 0, 99] []) ⟨.position, 0⟩ = .ok 7 ∧ src (machine [7, 0, 4, 0, 99] []) ⟨.position, 4⟩ = .ok 99 ∧
    (machine [7, 0, 4, 0, 99] []).mem.inb (dest (machine [7, 0, 4, 0, 99] []) 2 ⟨.position, 4⟩) = true ∧
    (machine [7, 0, 4, 0, 99] []).mem.inb (dest (machine [7, 0, 4, 0, 99] []) 2 ⟨.position, 5⟩) = false ∧
    (machine [7, 0, 4, 0, 99] []).mem.inb 5 = false := ⟨rfl, rfl, by decide, by decide, by decide⟩

theorem witness_ComparisonLaws :
    exec (.lt ⟨.immediate, 3⟩ ⟨.immediate, 5⟩ ⟨.position, 0⟩) (machine [1107, 3, 5, 0, 99] []) =
      .next (next (machine [1107, 3, 5, 0, 99] [])) ∧
    exec (.eq ⟨.immediate, 3⟩ ⟨.immediate, 5⟩ ⟨.position, 0⟩) (machine [1108, 3, 5, 0, 99] []) =
      .next (next (machine [1108, 3, 5, 0, 99] [])) ∧
    (machine [1107, 3, 5, 0, 99] []).runState = .running ∧
    (next (machine [1107, 3, 5, 0, 99] [])).runState = .running ∧
    (next (machine [1108, 3, 5, 0, 99] [])).runState = .running := ⟨rfl, rfl, rfl, by decide, by decide⟩

theorem witness_Input :
    (machine [3, 2, 99] [42, 43]).inQ = 42 :: [43] ∧
    (machine [3, 2, 99] [42, 43]).mem.inb (dest (machine [3, 2, 99] [42, 43]) 0 ⟨.position, 2⟩) = true ∧
    (machine [3, 2, 99] [42, 43]).mem.inb (dest (machine [3, 2, 99] [42, 43]) 0 ⟨.position, 3⟩) = false ∧
    (machine [3, 2, 99] []).inQ = [] := by decide

theorem witness_InputStarved :
    (machine [3, 0] []).Inv ∧ step (machine [3, 0] []) = .next (next (machine [3, 0] [])) ∧
    (next (machine [3, 0] [])).errKind = .inputStarved ∧ (machine [3, 0] []).decodeNext = .ok (.inp ⟨.position, 0⟩) :=
  ⟨machine_inv _ _ (by decide) (by decide) (by decide) (by decide), rfl, by decide, rfl⟩

theorem witness_Output :
    src (machine [4, 1] []) ⟨.position, 1⟩ = .ok 1 ∧ (machine [4, 1] []).runState = .running ∧
    (machine [4, 1] []).mem.inb 2 = false := ⟨rfl, rfl, by decide⟩

/-- Operand values for the four cases of the jumps: tested word 0 and not 0, operand 1 readable and not. -/
theorem witness_Jump :
    src (machine [5, 0] []) ⟨.position, 0⟩ = .ok 5 ∧ src (machine [5, 0] []) ⟨.position, 1⟩ = .ok 0 ∧
    (machine [5, 0] []).mem.inb 2 = false ∧ (machine [5, 0] []).mem.inb (-1) = false :=
  ⟨rfl, rfl, by decide, by decide⟩

theorem witness_JumpTarget :
    (machine [1105, 1, 3] []).decodeNext = .ok (.jt ⟨.immediate, 1⟩ ⟨.immediate, 3⟩) ∧
    (machine [1106, 0, -1] []).decodeNext = .ok (.jf ⟨.immediate, 0⟩ ⟨.immediate, -1⟩) ∧
    src (machine [1105, 1, 3] []) ⟨.immediate, 3⟩ = .ok 3 ∧ ((machine [1105, 1, 3] []).mem.len : Int) ≤ 3 ∧
    (-1 : Int) < 0 := ⟨rfl, rfl, rfl, by decide, by decide⟩

theorem witness_Halt : (machine [199] []).runState = .running ∧ (machine [199] []).mem.read 0 = some 199 ∧
    (0 : Int) ≤ 199 ∧ (199 : Int) % 100 = 99 := by decide

theorem witness_HaltIsNotAFault :
    (machine [99] []).Inv ∧ step (machine [99] []) = .next (next (machine [99] [])) ∧
    (next (machine [99] [])).runState = .halted :=
  ⟨machine_inv _ _ (by decide) (by decide) (by decide) (by decide), rfl, by decide⟩

theorem witness_frames :
    exec (.add ⟨.immediate, 1⟩ ⟨.immediate, 1⟩ ⟨.position, 5⟩) (machine [1101, 1, 1, 5, 99] []) =
      .next (next (machine [1101, 1, 1, 5, 99] [])) ∧
    exec (.inp ⟨.position, 0⟩) (machine [3, 0, 99] [1]) = .next (next (machine [3, 0, 99] [1])) ∧
    exec (.out ⟨.immediate, 7⟩) (machine [104, 7] []) = .next (next (machine [104, 7] [])) ∧
    exec (.jt ⟨.immediate, 1⟩ ⟨.immediate, 0⟩) (machine [1105, 1, 0] []) = .next (next (machine [1105, 1, 0] [])) ∧
    exec .hlt (machine [99] []) = .next (next (machine [99] [])) := ⟨rfl, rfl, rfl, rfl, rfl⟩

theorem witness_Reaches : Reaches (machine [104, 7, 99] []) (next (next (machine [104, 7, 99] []))) :=
  .tail (.tail (.refl _) rfl) rfl

theorem witness_TakingAFault :
    step (machine [1, 0, 0] []) = .next (next (machine [1, 0, 0] [])) ∧
    (next (machine [1, 0, 0] [])).runState = .faulted := ⟨rfl, by decide⟩

theorem witness_InvalidInstruction :
    (machine [98] []).Inv ∧ step (machine [98] []) = .next (next (machine [98] [])) ∧
    (next (machine [98] [])).errKind = .invalidInstruction :=
  ⟨machine_inv _ _ (by decide) (by decide) (by decide) (by decide), rfl, by decide⟩

theorem witness_OutOfBounds :
    (machine [4, 2] []).Inv ∧ step (machine [4, 2] []) = .next (next (machine [4, 2] [])) ∧
    (next (machine [4, 2] [])).errKind = .outOfBounds :=
  ⟨machine_inv _ _ (by decide) (by decide) (by decide) (by decide), rfl, by decide⟩

theorem witness_ResetState :
    legalReset Config.reference [9223372036854775807, -9223372036854775808] [0] = true ∧
    legalReset Config.reference [] [] = true ∧ legalReset ⟨some 32, .wrap, .literal⟩ [2147483647] [] = true ∧
    legalReset ⟨none, .fault, .cell⟩ [9223372036854775808] [] = true := by decide

theorem witness_IllegalReset_word :
    Config.reference.isWord 9223372036854775808 = false ∧ (9223372036854775808 : Int) ∈ [9223372036854775808] ++ [] ∧
    (⟨some 32, .fault, .cell⟩ : Config).isWord (-2147483649) = false := by decide

/-- With XLEN 32 an image of 2^31 - 3 cells is one too long. -/
theorem witness_IllegalReset_length :
    (⟨some 32, .fault, .cell⟩ : Config).fitsLength (List.replicate 2147483645 (0 : Int)).length = false ∧
    (⟨some 32, .fault, .cell⟩ : Config).fitsLength (List.replicate 2147483644 (0 : Int)).length = true := by
  rw [List.length_replicate, List.length_replicate]
  decide

theorem witness_NewInstance : State.new Config.reference [99] [1] = .next (machine [99] [1]) := rfl

theorem witness_StepKeepsInvariant :
    (machine [1101, 2, 3, 5, 99, 0] []).Inv ∧
    step (machine [1101, 2, 3, 5, 99, 0] []) = .next (next (machine [1101, 2, 3, 5, 99, 0] [])) :=
  ⟨machine_inv _ _ (by decide) (by decide) (by decide) (by decide), rfl⟩

theorem witness_RunToCompletion :
    runToCompletion true 1 (machine [99] []) = some (.memory [99], next (machine [99] [])) ∧
    runToCompletion false 1 (machine [0] []) =
      some (.machineError .invalidInstruction 0, next (machine [0] [])) ∧
    Reaches (machine [99] []) (next (machine [99] [])) ∧ (next (machine [99] [])).runState ≠ .running :=
  ⟨by decide, by decide, .tail (.refl _) rfl, by decide⟩

theorem witness_Suspend :
    runUntilOutputOrHalt 1 [5] (machine [104, 77, 99] []) =
      some (.output 77, next ((machine [104, 77, 99] []).appendInputs [5])) ∧
    outputsUntilHalt 1 2 (machine [104, 77, 99] []) = some ([77], next (next (machine [104, 77, 99] []))) ∧
    runToCompletion false 2 (machine [104, 77, 99] []) =
      some (.outputs [77], next (next (machine [104, 77, 99] []))) := by decide

/-- The least integer above the words is refused, the greatest word is not; the refused call leaves the instance. -/
theorem witness_IllegalInputs :
    Config.reference.isWord 9223372036854775808 = false ∧
    runUntilOutputOrHalt 1 [5, 9223372036854775808] (machine [3, 0, 99] []) =
      some (.refused .illegalInputs, machine [3, 0, 99] []) ∧
    runUntilOutputOrHalt 2 [9223372036854775807] (machine [3, 0, 99] []) =
      some (.halted [9223372036854775807, 0, 99] [] 2, next (next (machine [3, 0, 99] [9223372036854775807]))) := by decide

/-- Two inputs pending behind one another: IN takes the front, a faulting IN and any other instruction take none. -/
theorem witness_PendingInputQueue :
    (next (machine [3, 0, 99] [1, 2])).inQ = [2] ∧ (machine [3, 0, 99] [1, 2]).decodeNext = .ok (.inp ⟨.position, 0⟩) ∧
    (next (machine [3, 3, 99] [1, 2])).inQ = [1, 2] ∧ (next (machine [3, 3, 99] [1, 2])).runState = .faulted ∧
    (machine [99] [1, 2]).decodeNext = .ok .hlt ∧ step (machine [99] [1, 2]) = .next (next (machine [99] [1, 2])) ∧
    ∀ v ∈ (machine [3, 0, 99] [1, 2]).inQ, (machine [3, 0, 99] [1, 2]).config.isWord v = true :=
  ⟨by decide, rfl, by decide, by decide, rfl, rfl, by decide⟩

theorem witness_HostOperations :
    (machine [104, 7, 99] []).Inv ∧
    runUntilOutputOrHalt 1 [5] (machine [104, 7, 99] []) = some (.output 7, next (machine [104, 7, 99] [5])) ∧
    runToCompletion true 2 (machine [104, 7, 99] []) =
      some (.memory [104, 7, 99], next (next (machine [104, 7, 99] []))) :=
  ⟨machine_inv _ _ (by decide) (by decide) (by decide) (by decide), by decide, by decide⟩

theorem witness_TerminalCalls :
    (next (machine [99] [])).runState = .halted ∧ (next (machine [0] [])).runState = .faulted ∧
    ∀ v ∈ [9223372036854775807, -9223372036854775808], (next (machine [99] [])).config.isWord v = true := by decide

theorem witness_LaterInputs :
    step (machine [3, 0, 99] [1]) = .next (next (machine [3, 0, 99] [1])) ∧
    (next (machine [3, 0, 99] [1])).errKind ≠ .inputStarved := ⟨rfl, by decide⟩

theorem witness_Instances :
    stepInstance [machine [99] [], machine [104, 1] []] 0 = some [next (machine [99] []), machine [104, 1] []] ∧
    stepInstance [machine [99] [], machine [104, 1] []] 1 = some [machine [99] [], next (machine [104, 1] [])] := by
  decide

theorem witness_Feedback :
    [machine [104, 1] [], machine [99] []][0]? = some (machine [104, 1] []) ∧
    runUntilOutputOrHalt 1 [] (machine [104, 1] []) = some (.output 1, next (machine [104, 1] [])) ∧
    runUntilOutputOrHalt 1 [] (machine [99] []) = some (.halted [99] [] 0, next (machine [99] [])) := by decide

theorem witness_Refines :
    (machine [1101, 2, 3, 0] []).config.overflow = .fault ∧
    step (machine [1101, 2, 3, 0] []) = .next (next (machine [1101, 2, 3, 0] [])) ∧
    (next (machine [1101, 2, 3, 0] [])).errKind ≠ .overflow := ⟨rfl, rfl, by decide⟩

end Sys2Proof.Tests
end

section
/-!
SUPPORT. The pending-input queue (10_state.md R23): instructions other than IN neither read nor write it, IN removes its
front or leaves it, and it keeps holding words.
-/

namespace Sys2Proof.Machine

/-! ### Instructions other than IN do not read the queue -/

/-- The effect of an instruction that is no IN is the same whatever the queue holds. -/
theorem effect_with_inQ {i : Instr} {s t : State} (h : Effect i s t) (hi : ∀ d, i ≠ .inp d) (q : List Int) :
    Effect i { s with inQ := q } { t with inQ := q } := by
  cases i with
  | add a b d | mul a b d =>
    obtain ⟨x, y, r, hx, hy, hr, hd, rfl⟩ := h
    exact ⟨x, y, r, hx, hy, hr, hd, rfl⟩
  | lt a b d | eq a b d =>
    obtain ⟨x, y, hx, hy, hd, rfl⟩ := h
    exact ⟨x, y, hx, hy, hd, rfl⟩
  | inp d => exact absurd rfl (hi d)
  | out a =>
    obtain ⟨v, hv, rfl⟩ := h
    exact ⟨v, hv, rfl⟩
  | jt a b | jf a b =>
    obtain ⟨c, p, hc, hp, rfl⟩ := h
    refine ⟨c, p, hc, hp, ?_⟩
    split <;> rfl
  | hlt =>
    cases h
    rfl

/-- The fault of an instruction that is no IN is the same whatever the queue holds: its conditions speak of memory, pc
and parameters only. -/
theorem raises_with_inQ {i : Instr} {s : State} {e : Error} (h : Raises i s e) (hi : ∀ d, i ≠ .inp d) (q : List Int) :
    Raises i { s with inQ := q } e := by
  cases i with
  | inp d => exact absurd rfl (hi d)
  | add a b d | mul a b d | lt a b d | eq a b d | out a | jt a b | jf a b | hlt => exact h

/-- A step that is no IN does the same whatever the queue holds. -/
theorem step_with_inQ {s t : State} (h : step s = .next t) (hn : ¬∃ d, s.decodeNext = .ok (.inp d)) (q : List Int) :
    step { s with inQ := q } = .next { t with inQ := q } := by
  obtain ⟨hrun, ⟨e, hd, rfl⟩ | ⟨i, hd, hi⟩⟩ := step_eq_next.1 h
  · exact step_eq_next.2 ⟨hrun, .inl ⟨e, hd, rfl⟩⟩
  · have hinp : ∀ d, i ≠ .inp d := fun d he => hn ⟨d, he ▸ hd⟩
    refine step_eq_next.2 ⟨hrun, .inr ⟨i, hd, ?_⟩⟩
    obtain heff | ⟨e, hraise, rfl⟩ := hi
    · exact .inl (effect_with_inQ heff hinp q)
    · exact .inr ⟨e, raises_with_inQ hraise hinp q, rfl⟩

/-! ### What a step makes of the queue -/

/-- A step that is no IN leaves the queue. -/
theorem step_inQ_of_not_inp {s t : State} (h : step s = .next t) (hn : ¬∃ d, s.decodeNext = .ok (.inp d)) :
    t.inQ = s.inQ := by
  obtain ⟨-, ⟨e, -, rfl⟩ | ⟨i, hd, heff | ⟨e, -, rfl⟩⟩⟩ := step_eq_next.1 h
  · rfl
  · exact inQ_of_effect heff fun d he => hn ⟨d, he ▸ hd⟩
  · rfl

/-- An IN faults and leaves the queue, or removes the front and stores it at the result address (42_io.md R110). -/
theorem step_inQ_of_inp {s t : State} {d : Target} (h : step s = .next t) (hd : s.decodeNext = .ok (.inp d)) :
    (t.runState = .faulted ∧ t.inQ = s.inQ) ∨
      ∃ v, s.inQ = v :: t.inQ ∧ t.mem.read (dest s 0 d) = some v := by
  obtain ⟨-, ⟨e, he, -⟩ | ⟨i, hi, hstep⟩⟩ := step_eq_next.1 h
  · cases hd.symm.trans he
  cases hd.symm.trans hi
  obtain ⟨v, rest, hq, hinb, rfl⟩ | ⟨e, -, rfl⟩ := hstep
  · have hpop : s.inQ = v :: s.inQ.tail := by simp [hq]
    exact .inr ⟨v, hpop, Memory.read_write_self v hinb⟩
  · exact .inl ⟨rfl, rfl⟩

/-- No step puts anything into the queue: what is pending after it was pending before. -/
theorem mem_inQ_of_step {s t : State} (h : step s = .next t) {v : Int} (hv : v ∈ t.inQ) : v ∈ s.inQ := by
  by_cases hinp : ∃ d, s.decodeNext = .ok (.inp d)
  · obtain ⟨d, hd⟩ := hinp
    obtain ⟨-, hq⟩ | ⟨w, hq, -⟩ := step_inQ_of_inp h hd
    · exact hq ▸ hv
    · exact hq ▸ List.mem_cons_of_mem w hv
  · exact step_inQ_of_not_inp h hinp ▸ hv

/-- No step changes the parameters (log entry 1). -/
theorem step_config {s t : State} (h : step s = .next t) : t.config = s.config := by
  obtain ⟨-, ⟨e, -, rfl⟩ | ⟨i, -, heff | ⟨e, -, rfl⟩⟩⟩ := step_eq_next.1 h
  · rfl
  · exact (frame_of_effect heff).1
  · rfl

/-! ### The queue holds words -/

/-- Every pending input is a word (10_state.md R23). -/
def State.InputsAreWords (s : State) : Prop := ∀ v ∈ s.inQ, s.config.isWord v = true

theorem State.InputsAreWords.appendInputs {s : State} {l : List Int} (hs : s.InputsAreWords)
    (hl : ∀ v ∈ l, s.config.isWord v = true) : (s.appendInputs l).InputsAreWords :=
  fun v hv => (List.mem_append.1 hv).elim (hs v) (hl v)

theorem State.InputsAreWords.of_step {s t : State} (hs : s.InputsAreWords) (h : step s = .next t) : t.InputsAreWords :=
  fun v hv => step_config h ▸ hs v (mem_inQ_of_step h hv)

/-- A run call with words keeps the queue one of words: it appends them and then makes steps. -/
theorem State.InputsAreWords.of_runCall {n : Nat} {l : List Int} {s t : State} {r : PauseResult} (hs : s.InputsAreWords)
    (hl : ∀ v ∈ l, s.config.isWord v = true) (h : runUntilOutputOrHalt n l s = some (r, t)) : t.InputsAreWords := by
  rw [runUntilOutputOrHalt_of_words hl] at h
  exact (reaches_of_runUntilOutput h).keeps (P := State.InputsAreWords) (fun _ _ hu h => hu.of_step h) (hs.appendInputs hl)

/-- Reset sets the queue to the initial inputs, and accepts words only (70_reset_and_hazards.md R182). -/
theorem State.new_inQ {c : Config} {image inputs : List Int} {s : State} (h : State.new c image inputs = .next s) :
    s.inQ = inputs ∧ s.InputsAreWords := by
  cases hl : legalReset c image inputs with
  | false => simp [State.new_of_illegal hl] at h
  | true =>
    obtain ⟨-, -, hwords, -⟩ := legalReset_iff.1 hl
    rw [State.new_of_legal hl] at h
    cases h
    exact ⟨rfl, hwords⟩

/-- Settles O55: reset and run calls by their laws, steps by whether they decode an IN, and the words by the invariant
`State.InputsAreWords`, which every step keeps. -/
theorem pendingInputQueue : Obligations.PendingInputQueue :=
  ⟨fun _ _ _ _ h => State.new_inQ h,
    fun _ _ _ hwords => runUntilOutputOrHalt_of_words hwords,
    fun _ _ h => ⟨fun hn => ⟨step_inQ_of_not_inp h hn, step_with_inQ h hn⟩, fun _ hd => step_inQ_of_inp h hd⟩,
    fun _ _ hs => ⟨fun h => State.InputsAreWords.of_step hs h,
      fun _ _ _ hwords h => State.InputsAreWords.of_runCall hs hwords h⟩⟩

end Sys2Proof.Machine
end

section
/-!
SUPPORT. A store and the decoder (20_memory.md R50): the decoder reads memory through its read port alone, so it sees a
store as that port with one cell replaced.
-/

namespace Sys2Proof.Machine

/-- The read port of memory after a completed write is the port before with that cell replaced; a completed write is to
an address in memory, so the replaced cell always answers. -/
theorem State.read_of_memWrite {s t : State} {a v : Int} (h : s.memWrite a v = .ok t) :
    t.mem.read = fun b => if b = a then some v else s.mem.read b := by
  obtain ⟨hinb, rfl⟩ := State.memWrite_eq_ok.1 h
  exact Memory.read_write v hinb

/-- Settles O12: the two read ports are equal, so the decoder answers the same at every pc. -/
theorem storeIsSeenByEveryLaterFetch : Obligations.StoreIsSeenByEveryLaterFetch :=
  fun _ _ _ _ h p => congrArg (decode · p) (State.read_of_memWrite h)

end Sys2Proof.Machine
end

section
/-!
SUPPORT. Headers that decode to no instruction (30_encoding.md R65): a decoded header ends in its kind's opcode, and a
step over any header the decoder rejects takes InvalidInstruction with the whole header.
-/

namespace Sys2Proof

/-- The opcode table read backwards (30_encoding.md R62). -/
theorem opcode_of_kindOf {n : Nat} {k : Kind} (h : kindOf n = some k) : n = k.opcode := by
  unfold kindOf at h
  split at h <;> cases h <;> rfl

/-- A header that decodes ends in its kind's opcode. -/
theorem mod_hundred_of_decodeHeader {v : Int} {h : Header} (hd : decodeHeader v = .ok h) :
    v % 100 = (h.kind.opcode : Int) := by
  obtain ⟨hv, hk, -⟩ := decodeHeader_eq_ok.1 hd
  have hmod : v.toNat % 100 = h.kind.opcode := opcode_of_kindOf hk
  omega

/-- Every opcode is one of the nine known values. -/
theorem Kind.opcode_mem (k : Kind) : (k.opcode : Int) ∈ [1, 2, 3, 4, 5, 6, 7, 8, 99] := by cases k <;> decide

end Sys2Proof

namespace Sys2Proof.Machine

/-- Whichever of the header checks fails, the fault is InvalidInstruction with the whole header (R65 to R67). -/
theorem faultOfDecode_of_decodeHeader {v : Int} {e : DecodeError} (h : decodeHeader v = .error e) :
    faultOfDecode e = .invalidInstruction v := by
  obtain ⟨-, rfl⟩ | ⟨-, -, rfl⟩ | ⟨-, -, rfl⟩ := decodeHeader_eq_error h <;> rfl

/-- A failed decode is the step's fault. -/
theorem stepFaults_of_decodeNext {s : State} {e : DecodeError} (hrun : s.runState = .running)
    (h : s.decodeNext = .error e) : StepFaults s (faultOfDecode e) :=
  ⟨s.raise (faultOfDecode e), step_eq_next.2 ⟨hrun, .inl ⟨e, h, rfl⟩⟩, faultedFrom_raise s (faultOfDecode e)⟩

/-- A header the decoder rejects faults with itself as payload, whatever the operand cells. -/
theorem stepFaults_of_decodeHeader {s : State} {v : Int} {e : DecodeError} (hrun : s.runState = .running)
    (hread : s.mem.read s.pc = some v) (h : decodeHeader v = .error e) : StepFaults s (.invalidInstruction v) := by
  have hdec : s.decodeNext = .error e := decode_eq_error.2 (.inr (.inl ⟨v, hread, h⟩))
  exact faultOfDecode_of_decodeHeader h ▸ stepFaults_of_decodeNext hrun hdec

/-- Settles O3: a header that decoded would end in a known opcode, so this one is rejected before any operand cell is
read. -/
theorem unknownOpcodeIsInvalidInstruction : Obligations.UnknownOpcodeIsInvalidInstruction := by
  intro s v hrun hread hop
  cases h : decodeHeader v with
  | error e => exact stepFaults_of_decodeHeader hrun hread h
  | ok hd => exact absurd (mod_hundred_of_decodeHeader h ▸ hd.kind.opcode_mem) hop

/-- Settles O8: an immediate by the law of `src`, a position operand by what it can answer. -/
theorem sourceOperandModes : Obligations.SourceOperandModes :=
  fun s r => ⟨src_immediate s r,
    fun _ hv => src_eq_ok.2 (.inr ⟨rfl, hv⟩),
    fun hr => src_eq_error.2 ⟨rfl, Memory.inb_eq_false.2 hr, rfl⟩⟩

end Sys2Proof.Machine
end

section
/-!
SUPPORT. What a step reports and where it leaves the pc (40_execution_cycle.md R84, R89), by what was decoded and whether
it completed or raised a fault.
-/

namespace Sys2Proof.Machine

/-- A step that decoded `i` completes it or takes a fault it raises; the state before it is RUNNING. -/
theorem step_of_decodeNext {i : Instr} {s t : State} (h : step s = .next t) (hd : s.decodeNext = .ok i) :
    s.runState = .running ∧ (Effect i s t ∨ ∃ e, Raises i s e ∧ t = s.raise e) := by
  obtain ⟨hrun, ⟨e, he, -⟩ | ⟨j, hj, hstep⟩⟩ := step_eq_next.1 h
  · cases hd.symm.trans he
  · cases hd.symm.trans hj
    exact ⟨hrun, hstep⟩

/-- A step whose decode failed takes the fault of that failure. -/
theorem step_of_decodeNext_error {e : DecodeError} {s t : State} (h : step s = .next t) (hd : s.decodeNext = .error e) :
    t = s.raise (faultOfDecode e) := by
  obtain ⟨-, ⟨e', he, rfl⟩ | ⟨i, hi, -⟩⟩ := step_eq_next.1 h
  · cases hd.symm.trans he
    rfl
  · cases hd.symm.trans hi

theorem faults_of_raises {i : Instr} {s : State} {e : Error} (h : Raises i s e) : Faults i s e :=
  ⟨s.raise e, exec_of_raises h, faultedFrom_raise s e⟩

/-! ### The event of a step -/

@[simp] theorem eventOf_raise (s : State) (e : Error) : eventOf s (s.raise e) = .fault e.kind e.info := rfl

@[simp] theorem eventOf_halt (s : State) : eventOf s s.halt = .halted := rfl

theorem eventOf_of_append {s t : State} {v : Int} (hrun : t.runState = .running) (hq : t.outQ = s.outQ ++ [v]) :
    eventOf s t = .output v := by
  simp [eventOf, hrun, hq]

theorem eventOf_of_outQ_eq {s t : State} (hrun : t.runState = .running) (hq : t.outQ = s.outQ) :
    eventOf s t = .completed := by
  simp [eventOf, hrun, hq]

/-- The event of an instruction that neither halts nor writes output: none where it completes, else the fault. -/
theorem event_of_silent {i : Instr} {s t : State} (hrun : s.runState = .running)
    (h : Effect i s t ∨ ∃ e, Raises i s e ∧ t = s.raise e) (hhlt : i ≠ .hlt) (hout : ∀ a, i ≠ .out a) :
    (SameStatus s t ∧ eventOf s t = .completed) ∨
      ∃ e, FaultedFrom s t e ∧ Faults i s e ∧ eventOf s t = .fault e.kind e.info := by
  obtain heff | ⟨e, hraise, rfl⟩ := h
  · have hsame := sameStatus_of_effect heff hhlt
    exact .inl ⟨hsame, eventOf_of_outQ_eq (hsame.runState.trans hrun) (outQ_of_effect heff hout)⟩
  · exact .inr ⟨e, faultedFrom_raise s e, faults_of_raises hraise, eventOf_raise s e⟩

/-- The event of a write-output: the word it appended, or the fault of its operand. -/
theorem event_of_out {a : Operand} {s t : State} (hrun : s.runState = .running)
    (h : Effect (.out a) s t ∨ ∃ e, Raises (.out a) s e ∧ t = s.raise e) :
    (∃ v, src s a = .ok v ∧ t.outQ = s.outQ ++ [v] ∧ eventOf s t = .output v) ∨
      ∃ e, src s a = .error e ∧ eventOf s t = .fault e.kind e.info := by
  obtain ⟨v, hv, rfl⟩ | ⟨e, hraise, rfl⟩ := h
  · exact .inl ⟨v, hv, rfl, eventOf_of_append hrun rfl⟩
  · exact .inr ⟨e, hraise, eventOf_raise s e⟩

/-- Settles O18: by what was decoded; only halt and write-output report anything of their own. -/
theorem eventReportsTheStep : Obligations.EventReportsTheStep := by
  intro s t h
  cases hd : s.decodeNext with
  | error e => exact step_of_decodeNext_error h hd ▸ eventOf_raise s (faultOfDecode e)
  | ok i =>
    obtain ⟨hrun, hi⟩ := step_of_decodeNext h hd
    cases i with
    | hlt =>
      obtain rfl | ⟨e, hraise, -⟩ := hi
      · exact eventOf_halt s
      · exact hraise.elim
    | out a => exact event_of_out hrun hi
    | add | mul | inp | jt | jf | lt | eq => exact event_of_silent hrun hi nofun nofun

/-! ### The pc after a step -/

/-- A decoded instruction lies in memory to its last cell, so the address past it is at most N. -/
theorem end_le_of_decodeNext {i : Instr} {s : State} (h : s.decodeNext = .ok i) :
    s.pc + (i.size : Int) ≤ (s.mem.len : Int) := by
  obtain ⟨v, hheader, -, -, hcells⟩ := cells_of_decode h
  have hlen := i.raws_length
  cases hn : i.kind.operandCount with
  | zero =>
    have hin := Memory.inb_iff.1 (Memory.inb_of_read hheader)
    simp only [Instr.size, hn]
    omega
  | succ n =>
    have hlast := Memory.inb_iff.1 (Memory.inb_of_read (hcells n (by omega)))
    simp only [Instr.size, hn]
    omega

/-- A RUNNING state whose pc is N fetches outside memory. -/
theorem stepFaults_at_end {s : State} (hrun : s.runState = .running) (hpc : s.pc = (s.mem.len : Int)) :
    StepFaults s (.outOfBounds (s.mem.len : Int)) := by
  have hfetch : s.mem.read s.pc = none := Memory.read_eq_none.2 (Memory.inb_eq_false.2 (.inr hpc.ge))
  have hd : s.decodeNext = .error (.fetchOutOfBounds s.pc) := decode_eq_error.2 (.inl ⟨hfetch, rfl⟩)
  exact hpc ▸ stepFaults_of_decodeNext hrun hd

/-- An instruction that completes takes no fault: it halts, or leaves the run state. -/
theorem not_faulted_of_effect {i : Instr} {s t : State} (hrun : s.runState = .running) (h : Effect i s t) :
    t.runState ≠ .faulted := by
  by_cases hi : i = .hlt
  · subst hi
    cases h
    exact nofun
  · rw [(sameStatus_of_effect h hi).runState, hrun]
    exact nofun

/-- Settles O19: the pc by the effect of each kind, the bound by the cells the decoder read, the next fetch by the
unchanged N. -/
theorem sequentialAdvance : Obligations.SequentialAdvance := by
  intro s t i h hd
  obtain ⟨hrun, heff | ⟨e, -, rfl⟩⟩ := step_of_decodeNext h hd
  · obtain ⟨-, hlen, -⟩ := frame_of_effect heff
    refine ⟨fun hf => absurd hf (not_faulted_of_effect hrun heff),
      fun _ => ⟨?_, end_le_of_decodeNext hd, fun hr hpc => ?_⟩⟩
    · cases i with
      | add a b d | mul a b d =>
        obtain ⟨_, _, _, _, _, _, _, rfl⟩ := heff
        rfl
      | lt a b d | eq a b d =>
        obtain ⟨_, _, _, _, _, rfl⟩ := heff
        rfl
      | inp d =>
        obtain ⟨_, _, _, _, rfl⟩ := heff
        rfl
      | out a =>
        obtain ⟨_, _, rfl⟩ := heff
        rfl
      | jt a b | jf a b =>
        obtain ⟨c, p, hc, hp, rfl⟩ := heff
        exact ⟨c, p, hc, hp, apply_ite State.pc _ _ _⟩
      | hlt =>
        cases heff
        rfl
    · rw [← hlen] at hpc ⊢
      exact stepFaults_at_end hr hpc
  · exact ⟨fun _ => rfl, fun hn => absurd rfl hn⟩

end Sys2Proof.Machine
end

section
/-!
SUPPORT. ADD and MUL (41_arithmetic.md R100, R101) as two uses of the common part of the F3 kinds: how such an
instruction completes and which fault it takes, said for any operation.
-/

namespace Sys2Proof

/-- The canonical header as a sum of integers (30_encoding.md R72). -/
theorem headerWord_eq (k : Kind) (m0 m1 m2 : Nat) :
    headerWord k m0 m1 m2 = (k.opcode : Int) + 100 * (m0 : Int) + 1000 * (m1 : Int) + 10000 * (m2 : Int) := by
  simp [headerWord]

end Sys2Proof

namespace Sys2Proof.Machine

/-- A position source outside memory raises OutOfBounds with its raw value (30_encoding.md R64). -/
theorem src_of_not_inb {s : State} {o : Operand} (hpos : o.mode = .position) (hout : s.mem.inb o.raw = false) :
    src s o = .error (.outOfBounds o.raw) :=
  src_eq_error.2 ⟨hpos, hout, rfl⟩

/-! ### Instructions whose exec is the common part of the F3 kinds -/

section BinaryInstruction

variable {i : Instr} {op : Int → Int → Except Error Int} {a b : Operand} {d : Target} {s : State}

/-- With both sources read, a result and an address in memory, the result is stored, the pc moves past four cells, and
nothing else changes. -/
theorem binary_completes (hexec : exec i s = s.commit (binaryResult op a b d s)) {x y r : Int} (ha : src s a = .ok x)
    (hb : src s b = .ok y) (hop : op x y = .ok r) (hin : s.mem.inb (dest s 2 d) = true) :
    ∃ t, exec i s = .next t ∧ StoredAt s t (dest s 2 d) r ∧ t.pc = s.pc + 4 ∧ t.inQ = s.inQ ∧ t.outQ = s.outQ ∧
      SameStatus s t := by
  have hok : binaryResult op a b d s = .ok ((s.store (dest s 2 d) r).advance 4) :=
    binaryResult_eq_ok.2 ⟨x, y, r, ha, hb, hop, hin, rfl⟩
  have hnext : exec i s = .next ((s.store (dest s 2 d) r).advance 4) := by rw [hexec, hok, State.commit_ok]
  exact ⟨_, hnext, storedAt_of_write hin rfl, rfl, rfl, rfl, rfl, rfl, rfl, rfl⟩

/-- An error of the common part is the instruction's fault, with no other effect (40_execution_cycle.md R85). -/
theorem binary_faults (hexec : exec i s = s.commit (binaryResult op a b d s)) {e : Error}
    (herr : binaryResult op a b d s = .error e) : Faults i s e :=
  ⟨s.raise e, by rw [hexec, herr, State.commit_error], faultedFrom_raise s e⟩

end BinaryInstruction

/-- Settles O20: both instructions are the common part of the F3 kinds with an exact operation narrowed to a word, so
the completion and each fault in turn are those of the common part. -/
theorem arithmeticInstructions : Obligations.ArithmeticInstructions := by
  intro mk op code hmk a b d s
  have hexec : exec (mk a b d) s = s.commit (binaryResult (fun x y => narrow s.config (op x y)) a b d s) := by
    obtain ⟨rfl, rfl, -⟩ | ⟨rfl, rfl, -⟩ := hmk <;> rfl
  refine ⟨?_, fun x y ha hb hword hin => binary_completes hexec ha hb (narrow_of_isWord hword) hin,
    fun hpos hout => ?_, fun x ha hpos hout => ?_, fun x y ha hb hword hover => ?_, fun x y ha hb hword hout => ?_⟩
  · obtain ⟨rfl, -, rfl⟩ | ⟨rfl, -, rfl⟩ := hmk <;>
      simp [encode, Instr.header, Instr.raws, headerWord_eq, Kind.opcode]
  · exact binary_faults hexec (binaryResult_eq_error.2 (.inl (src_of_not_inb hpos hout)))
  · exact binary_faults hexec (binaryResult_eq_error.2 (.inr (.inl ⟨x, ha, src_of_not_inb hpos hout⟩)))
  · have hnarrow : narrow s.config (op x y) = .error .overflow := narrow_eq_error.2 ⟨hword, hover, rfl⟩
    exact binary_faults hexec (binaryResult_eq_error.2 (.inr (.inr (.inl ⟨x, y, ha, hb, hnarrow⟩))))
  · have hnarrow : narrow s.config (op x y) = .ok (op x y) := narrow_of_isWord hword
    exact binary_faults hexec
      (binaryResult_eq_error.2 (.inr (.inr (.inr ⟨x, y, op x y, ha, hb, hnarrow, hout, rfl⟩))))

end Sys2Proof.Machine
end

section
/-!
SUPPORT. OUT and the pause after an output (42_io.md R111, R112): a step is a completed OUT or leaves the output sequence,
so a run call that pauses cuts a run right after its next OUT, and calls until Halted cut the whole run.
-/

namespace Sys2Proof.Machine

/-- Settles O28: the completion is OUT's effect, the fault is its operand's. -/
theorem outputInstruction : Obligations.OutputInstruction := by
  intro a s
  refine ⟨?_, fun v hv => ?_, fun hpos hout => ?_⟩
  · simp [encode, Instr.header, Instr.raws, headerWord_eq, Kind.opcode]
  · have heff : Effect (.out a) s ((s.appendOutput v).advance 2) := ⟨v, hv, rfl⟩
    exact ⟨_, exec_of_effect heff, rfl, rfl, rfl, rfl, sameStatus_of_effect heff nofun,
      fun hrun => eventOf_of_append hrun rfl⟩
  · exact faults_of_raises (i := .out a) (src_of_not_inb hpos hout)

/-! ### Steps by what they report -/

theorem running_of_step {s t : State} (h : step s = .next t) : s.runState = .running := (step_eq_next.1 h).1

/-- A step that is no completed OUT: it leaves the output sequence and reports no output. -/
def Silent (s t : State) : Prop := t.outQ = s.outQ ∧ ∀ v, eventOf s t ≠ .output v

theorem silent_of_outQ_eq {s t : State} (hq : t.outQ = s.outQ) : Silent s t := by
  refine ⟨hq, fun v => ?_⟩
  cases hr : t.runState <;> simp [eventOf, hr, hq]

/-- Every step is a completed OUT, which reports the word it appends, or silent. -/
theorem out_or_silent_of_step {s t : State} (h : step s = .next t) :
    (∃ a v, s.decodeNext = .ok (.out a) ∧ src s a = .ok v ∧ t = (s.appendOutput v).advance 2 ∧
      eventOf s t = .output v) ∨ Silent s t := by
  obtain ⟨hrun, ⟨e, -, rfl⟩ | ⟨i, hd, heff | ⟨e, -, rfl⟩⟩⟩ := step_eq_next.1 h
  · exact .inr (silent_of_outQ_eq rfl)
  · by_cases hi : ∃ a, i = .out a
    · obtain ⟨a, rfl⟩ := hi
      obtain ⟨v, hv, rfl⟩ := heff
      exact .inl ⟨a, v, hd, hv, rfl, eventOf_of_append hrun rfl⟩
    · exact .inr (silent_of_outQ_eq (outQ_of_effect heff fun a ha => hi ⟨a, ha⟩))
  · exact .inr (silent_of_outQ_eq rfl)

/-! ### The loop of `run_to_completion` -/

theorem completionResult_of_step {dump : Bool} {s t : State} (h : step s = .next t) : completionResult dump s = none := by
  simp [completionResult, running_of_step h]

theorem completionResult_eq_outputs {s : State} {q : List Int} :
    completionResult false s = some (.outputs q) ↔ s.runState = .halted ∧ q = s.outQ := by
  cases hr : s.runState <;> simp [completionResult, hr, eq_comm]

theorem runToCompletion_of_completionResult {dump : Bool} {s : State} {r : CompletionResult}
    (h : completionResult dump s = some r) (n : Nat) : runToCompletion dump n s = some (r, s) := by
  cases n <;> simp [runToCompletion, h]

theorem runToCompletion_of_step {dump : Bool} {s u : State} (h : step s = .next u) (n : Nat) :
    runToCompletion dump (n + 1) s = runToCompletion dump n u := by
  simp [runToCompletion, completionResult_of_step h, h]

/-- A run that returns is over, or makes a step and goes on. -/
theorem runToCompletion_cases {dump : Bool} {n : Nat} {s t : State} {r : CompletionResult}
    (h : runToCompletion dump n s = some (r, t)) :
    (completionResult dump s = some r ∧ t = s) ∨
      ∃ k u, n = k + 1 ∧ step s = .next u ∧ runToCompletion dump k u = some (r, t) := by
  cases hc : completionResult dump s with
  | some r' =>
    cases (runToCompletion_of_completionResult hc n).symm.trans h
    exact .inl ⟨rfl, rfl⟩
  | none =>
    cases n with
    | zero => simp [runToCompletion, hc] at h
    | succ k =>
      cases hs : step s with
      | next u => exact .inr ⟨k, u, rfl, rfl, runToCompletion_of_step hs k ▸ h⟩
      | fault | refused => simp [runToCompletion, hc, hs] at h

/-- A run from a reached state is the end of a longer run. -/
theorem runToCompletion_of_reaches {dump : Bool} {s t : State} {x : CompletionResult × State} (h : Reaches s t) {n : Nat}
    (hn : runToCompletion dump n t = some x) : ∃ m, runToCompletion dump m s = some x := by
  induction h generalizing n with
  | refl => exact ⟨n, hn⟩
  | tail _ hs ih => exact ih ((runToCompletion_of_step hs n).trans hn)

/-! ### The loop of `run_until_output_or_halt` -/

theorem pauseResult_of_step {s t : State} (h : step s = .next t) : pauseResult s = none := by
  simp [pauseResult, running_of_step h]

theorem pauseResult_ne_output {s : State} {v : Int} : pauseResult s ≠ some (.output v) := by
  cases hr : s.runState <;> simp [pauseResult, hr]

theorem halted_of_pauseResult {s : State} {image outputs : List Int} {pc : Int}
    (h : pauseResult s = some (.halted image outputs pc)) : s.runState = .halted := by
  cases hr : s.runState <;> simp [pauseResult, hr] at h ⊢

theorem runUntilOutput_of_pauseResult {s : State} {r : PauseResult} (h : pauseResult s = some r) (n : Nat) :
    runUntilOutput n s = some (r, s) := by
  cases n <;> simp [runUntilOutput, h]

theorem runUntilOutput_of_output {s u : State} {v : Int} (h : step s = .next u) (he : eventOf s u = .output v) (n : Nat) :
    runUntilOutput (n + 1) s = some (.output v, u) := by
  simp [runUntilOutput, pauseResult_of_step h, h, he]

theorem runUntilOutput_of_silent {s u : State} (h : step s = .next u) (he : Silent s u) (n : Nat) :
    runUntilOutput (n + 1) s = runUntilOutput n u := by
  obtain ⟨-, hne⟩ := he
  cases hev : eventOf s u with
  | output v => exact absurd hev (hne v)
  | completed | halted | fault => simp [runUntilOutput, pauseResult_of_step h, h, hev]

/-- A call that returns made silent steps to some `u`, which is terminal and its own answer, or whose next step is the
OUT that ends the call. -/
theorem runUntilOutput_cases {n : Nat} {s t : State} {r : PauseResult} (h : runUntilOutput n s = some (r, t)) :
    ∃ u, Reaches s u ∧ u.outQ = s.outQ ∧
      ((pauseResult u = some r ∧ t = u) ∨
        ∃ a v, u.runState = .running ∧ u.decodeNext = .ok (.out a) ∧ src u a = .ok v ∧ r = .output v ∧
          t = (u.appendOutput v).advance 2) := by
  induction n generalizing s with
  | zero =>
    obtain ⟨_, hp, he⟩ := Option.map_eq_some_iff.1 h
    cases he
    exact ⟨t, .refl t, rfl, .inl ⟨hp, rfl⟩⟩
  | succ n ih =>
    cases hp : pauseResult s with
    | some r' =>
      cases (runUntilOutput_of_pauseResult hp (n + 1)).symm.trans h
      exact ⟨t, .refl t, rfl, .inl ⟨hp, rfl⟩⟩
    | none =>
      cases hs : step s with
      | fault | refused => simp [runUntilOutput, hp, hs] at h
      | next u =>
        obtain ⟨a, v, hd, hv, hu, he⟩ | hsilent := out_or_silent_of_step hs
        · cases (runUntilOutput_of_output hs he n).symm.trans h
          exact ⟨s, .refl s, rfl, .inr ⟨a, v, running_of_step hs, hd, hv, rfl, hu⟩⟩
        · rw [runUntilOutput_of_silent hs hsilent] at h
          obtain ⟨w, hreach, hq, hend⟩ := ih h
          exact ⟨w, .head hs hreach, hq.trans hsilent.1, hend⟩

/-- A call that returns Output(v) ended with a completed OUT of `v`, the first one it came to. -/
theorem out_of_runUntilOutput {n : Nat} {s t : State} {v : Int} (h : runUntilOutput n s = some (.output v, t)) :
    ∃ u a, Reaches s u ∧ u.outQ = s.outQ ∧ u.runState = .running ∧ u.decodeNext = .ok (.out a) ∧ src u a = .ok v ∧
      t = (u.appendOutput v).advance 2 := by
  obtain ⟨u, hreach, hq, ⟨hp, -⟩ | ⟨a, _, hrun, hd, hv, hr, ht⟩⟩ := runUntilOutput_cases h
  · exact absurd hp pauseResult_ne_output
  · cases hr
    exact ⟨u, a, hreach, hq, hrun, hd, hv, ht⟩

theorem outQ_of_runUntilOutput {n : Nat} {s t : State} {v : Int} (h : runUntilOutput n s = some (.output v, t)) :
    t.outQ = s.outQ ++ [v] := by
  obtain ⟨u, a, -, hq, -, -, -, rfl⟩ := out_of_runUntilOutput h
  exact congrArg (· ++ [v]) hq

/-- A call that returns Halted left the output sequence as it was. -/
theorem halted_of_runUntilOutput {n : Nat} {s t : State} {image outputs : List Int} {pc : Int}
    (h : runUntilOutput n s = some (.halted image outputs pc, t)) : t.runState = .halted ∧ t.outQ = s.outQ := by
  obtain ⟨u, -, hq, ⟨hp, rfl⟩ | ⟨_, _, _, _, _, hr, _⟩⟩ := runUntilOutput_cases h
  · exact ⟨halted_of_pauseResult hp, hq⟩
  · cases hr

/-- A call on a machine whose run is over returns Halted at once. -/
theorem halted_call_of_completionResult {s : State} {q : List Int} (h : completionResult false s = some (.outputs q))
    (n : Nat) : q = s.outQ ∧ ∃ image outputs pc, runUntilOutput n s = some (.halted image outputs pc, s) := by
  obtain ⟨hhalt, hq⟩ := completionResult_eq_outputs.1 h
  have hpause : pauseResult s = some (.halted s.mem.dump s.outQ s.pc) := by simp [pauseResult, hhalt]
  exact ⟨hq, _, _, _, runUntilOutput_of_pauseResult hpause n⟩

/-! ### Calls until Halted -/

/-- The first of the calls returns an output and the others go on from there, or it returns Halted. -/
theorem outputsUntilHalt_succ_eq_some {n k : Nat} {s t : State} {vs : List Int} :
    outputsUntilHalt n (k + 1) s = some (vs, t) ↔
      (∃ v u ws, runUntilOutput n s = some (.output v, u) ∧ outputsUntilHalt n k u = some (ws, t) ∧ vs = v :: ws) ∨
      ∃ image outputs pc, runUntilOutput n s = some (.halted image outputs pc, t) ∧ vs = [] := by
  rw [outputsUntilHalt, runUntilOutputOrHalt_nil]
  rcases runUntilOutput n s with _ | ⟨v | _ | _ | _, u⟩ <;> simp [eq_comm, and_comm]

/-- The outputs that calls until Halted return are those of one run, behind what was there before. -/
theorem runToCompletion_of_outputsUntilHalt {n k : Nat} {s t : State} {vs : List Int}
    (h : outputsUntilHalt n k s = some (vs, t)) :
    ∃ m, runToCompletion false m s = some (.outputs (s.outQ ++ vs), t) := by
  induction k generalizing s vs with
  | zero => cases h
  | succ k ih =>
    obtain ⟨v, u, ws, hcall, hrest, rfl⟩ | ⟨_, _, _, hcall, rfl⟩ := outputsUntilHalt_succ_eq_some.1 h
    · obtain ⟨m, hm⟩ := ih hrest
      have hq : u.outQ ++ ws = s.outQ ++ v :: ws := by simp [outQ_of_runUntilOutput hcall]
      exact runToCompletion_of_reaches (reaches_of_runUntilOutput hcall) (hq ▸ hm)
    · obtain ⟨hhalt, hq⟩ := halted_of_runUntilOutput hcall
      have hend : completionResult false t = some (.outputs (s.outQ ++ [])) :=
        completionResult_eq_outputs.2 ⟨hhalt, by simp [hq]⟩
      exact runToCompletion_of_reaches (reaches_of_runUntilOutput hcall) (runToCompletion_of_completionResult hend 0)

/-- The first call on a machine whose run halts within the call's bound: it returns Halted with the run's end, or
pauses at an OUT with less of the run to go. -/
theorem firstCall_of_runToCompletion {m n : Nat} {s t : State} {q : List Int}
    (h : runToCompletion false m s = some (.outputs q, t)) (hn : m ≤ n) :
    (q = s.outQ ∧ ∃ image outputs pc, runUntilOutput n s = some (.halted image outputs pc, t)) ∨
      ∃ v u k, runUntilOutput n s = some (.output v, u) ∧ u.outQ = s.outQ ++ [v] ∧ k < m ∧
        runToCompletion false k u = some (.outputs q, t) := by
  induction m generalizing s n with
  | zero =>
    obtain ⟨hc, rfl⟩ | ⟨_, _, hm, _⟩ := runToCompletion_cases h
    · exact .inl (halted_call_of_completionResult hc n)
    · cases hm
  | succ m ih =>
    obtain ⟨hc, rfl⟩ | ⟨_, u, hm, hs, hu⟩ := runToCompletion_cases h
    · exact .inl (halted_call_of_completionResult hc n)
    cases hm
    obtain ⟨n, rfl⟩ := Nat.exists_eq_add_one_of_ne_zero (Nat.ne_zero_of_lt hn)
    obtain ⟨_, v, -, -, rfl, he⟩ | hsilent := out_or_silent_of_step hs
    · exact .inr ⟨v, _, m, runUntilOutput_of_output hs he n, rfl, m.lt_succ_self, hu⟩
    · rw [runUntilOutput_of_silent hs hsilent, ← hsilent.1]
      obtain hhalt | ⟨v, w, k, hcall, hq, hk, hw⟩ := ih hu (Nat.le_of_succ_le_succ hn)
      · exact .inl hhalt
      · exact .inr ⟨v, w, k, hcall, hq, hk.trans m.lt_succ_self, hw⟩

/-- A run that halts is cut into calls, each within any bound the whole run is within. -/
theorem outputsUntilHalt_of_runToCompletion {m n : Nat} {s t : State} {q : List Int}
    (h : runToCompletion false m s = some (.outputs q, t)) (hn : m ≤ n) :
    ∃ calls vs, outputsUntilHalt n calls s = some (vs, t) ∧ q = s.outQ ++ vs := by
  induction m using Nat.strong_induction_on generalizing s with
  | _ m ih =>
    obtain ⟨hq, hcall⟩ | ⟨v, u, k, hcall, hv, hk, hu⟩ := firstCall_of_runToCompletion h hn
    · obtain ⟨image, outputs, pc, hcall⟩ := hcall
      exact ⟨1, [], outputsUntilHalt_succ_eq_some.2 (.inr ⟨image, outputs, pc, hcall, rfl⟩), by simp [hq]⟩
    · obtain ⟨calls, vs, hrest, hq⟩ := ih k hk hu (hk.le.trans hn)
      exact ⟨calls + 1, v :: vs, outputsUntilHalt_succ_eq_some.2 (.inl ⟨v, u, vs, hcall, hrest, rfl⟩), by simp [hq, hv]⟩

/-- Settles O48: the pause by the OUT that ends the call, the outputs of the calls by induction on the calls one way and
on the length of the run the other. -/
theorem suspendAtOutputKeepsTheRun : Obligations.SuspendAtOutputKeepsTheRun := by
  refine ⟨fun n inputs s t v h => ?_, fun _ _ _ _ _ h => runToCompletion_of_outputsUntilHalt h, fun m s t q h => ?_⟩
  · obtain ⟨-, hcall⟩ | ⟨hr, -⟩ := runUntilOutputOrHalt_cases h
    · obtain ⟨u, a, hreach, hq, hrun, hd, hv, rfl⟩ := out_of_runUntilOutput hcall
      exact ⟨u, a, hreach, hq, hrun, hd, hv, rfl, rfl, rfl, rfl, sameStatus_of_effect (i := .out a) ⟨v, hv, rfl⟩ nofun⟩
    · cases hr
  · obtain ⟨calls, vs, hcalls⟩ := outputsUntilHalt_of_runToCompletion h le_rfl
    exact ⟨m, calls, vs, hcalls⟩

end Sys2Proof.Machine
end

section
/-!
SUPPORT. The laws of the comparisons LT and EQ (44_compare.md R132): when the result word is 1 and when it is 0, and what
executing either instruction can do: store such a word and move on, or take OutOfBounds.
-/

namespace Sys2Proof.Machine

theorem lessThan_of_lt {x y : Int} (h : x < y) : lessThan x y = 1 := by simp [lessThan, truthWord, h]

theorem lessThan_of_le {x y : Int} (h : y ≤ x) : lessThan x y = 0 := by simp [lessThan, truthWord, h.not_gt]

@[simp] theorem equals_self (x : Int) : equals x x = 1 := by simp [equals, truthWord]

theorem equals_of_ne {x y : Int} (h : x ≠ y) : equals x y = 0 := by simp [equals, truthWord, h]

theorem lessThan_cases (x y : Int) : (lessThan x y = 1 ∧ x < y) ∨ (lessThan x y = 0 ∧ y ≤ x) :=
  (lt_or_ge x y).imp (fun h => ⟨lessThan_of_lt h, h⟩) fun h => ⟨lessThan_of_le h, h⟩

theorem equals_cases (x y : Int) : (equals x y = 1 ∧ x = y) ∨ (equals x y = 0 ∧ x ≠ y) :=
  (eq_or_ne x y).imp (fun h => ⟨by simp [h], h⟩) fun h => ⟨equals_of_ne h, h⟩

/-- Exactly one of the three comparisons of two words gives 1. -/
theorem lessThan_add_equals_add_lessThan (x y : Int) : lessThan x y + equals x y + lessThan y x = 1 := by
  obtain h | rfl | h := lt_trichotomy x y
  · rw [lessThan_of_lt h, equals_of_ne h.ne, lessThan_of_le h.le]; rfl
  · rw [lessThan_of_le le_rfl, equals_self]; rfl
  · rw [lessThan_of_le h.le, equals_of_ne h.ne', lessThan_of_lt h]; rfl

/-- LT and EQ raise OutOfBounds alone: by a source or by the result address. -/
theorem outOfBounds_of_raises_comparison {a b : Operand} {d : Target} {s : State} {e : Error}
    (h : Raises (.lt a b d) s e ∨ Raises (.eq a b d) s e) : ∃ c, e = .outOfBounds c := by
  obtain ha | ⟨_, -, hb⟩ | ⟨_, _, -, -, -, hd⟩ := or_self_iff.1 h
  · exact ⟨_, (src_eq_error.1 ha).2.2⟩
  · exact ⟨_, (src_eq_error.1 hb).2.2⟩
  · exact ⟨_, hd⟩

/-- Executing LT or EQ stores the word 1 or 0 at a result address in memory and moves the pc past the four cells, or
takes OutOfBounds. -/
theorem comparison_cases {a b : Operand} {d : Target} {s t : State}
    (h : exec (.lt a b d) s = .next t ∨ exec (.eq a b d) s = .next t) :
    (∃ r, (r = 1 ∨ r = 0) ∧ s.mem.inb (dest s 2 d) = true ∧ t = (s.store (dest s 2 d) r).advance 4) ∨
      ∃ c, t = s.raise (.outOfBounds c) := by
  rw [exec_eq_next, exec_eq_next] at h
  obtain (hlt | ⟨e, he, rfl⟩) | heq | ⟨e, he, rfl⟩ := h
  · obtain ⟨x, y, -, -, hin, ht⟩ := hlt
    exact .inl ⟨lessThan x y, (lessThan_cases x y).imp And.left And.left, hin, ht⟩
  · obtain ⟨c, rfl⟩ := outOfBounds_of_raises_comparison (.inl he)
    exact .inr ⟨c, rfl⟩
  · obtain ⟨x, y, -, -, hin, ht⟩ := heq
    exact .inl ⟨equals x y, (equals_cases x y).imp And.left And.left, hin, ht⟩
  · obtain ⟨c, rfl⟩ := outOfBounds_of_raises_comparison (.inr he)
    exact .inr ⟨c, rfl⟩

/-- Settles O25: the values by the order of the two words. A completed comparison is no fault even from a state that has
recorded Overflow already, since it moves the pc; the fault one can take is OutOfBounds. -/
theorem comparisonLaws : Obligations.ComparisonLaws := by
  refine ⟨lessThan_cases, equals_cases, lessThan_add_equals_add_lessThan, fun a b d s t h => ?_⟩
  obtain ⟨r, hr, hin, rfl⟩ | ⟨c, rfl⟩ := comparison_cases h
  · have hcell : ((s.store (dest s 2 d) r).advance 4).mem.read (dest s 2 d) = some r := Memory.read_write_self r hin
    refine ⟨fun hf => ?_, fun _ _ => ⟨⟨rfl, rfl, rfl, rfl⟩, ?_⟩⟩
    · have hpc : s.pc + 4 = s.pc := hf.pc
      omega
    · rw [hcell]
      exact hr.imp (congrArg some) (congrArg some)
  · exact ⟨fun hf => (nomatch hf.errKind), nofun⟩

end Sys2Proof.Machine
end

section
/-!
SUPPORT. The faults a step takes (60_exceptions.md R153, R156, R160): a step completes the decoded instruction or takes one
fault, so which fault it recorded says what it decoded, and a step that ends HALTED recorded none.
-/

namespace Sys2Proof.Machine

/-! ### Complete or fault -/

/-- The fault `e` that a step of `s` raises: that of a failed decode, or the decoded instruction's own. -/
def StepRaises (s : State) (e : Error) : Prop :=
  (∃ d, s.decodeNext = .error d ∧ e = faultOfDecode d) ∨ ∃ i, s.decodeNext = .ok i ∧ Raises i s e

/-- A step completes an instruction, or takes a fault. -/
theorem effect_or_raise_of_step {s t : State} (h : step s = .next t) :
    (∃ i, Effect i s t) ∨ ∃ e, StepRaises s e ∧ t = s.raise e := by
  obtain ⟨-, ⟨d, hd, rfl⟩ | ⟨i, hd, heff | ⟨e, hraise, rfl⟩⟩⟩ := step_eq_next.1 h
  · exact .inr ⟨_, .inl ⟨d, hd, rfl⟩, rfl⟩
  · exact .inl ⟨i, heff⟩
  · exact .inr ⟨e, .inr ⟨i, hd, hraise⟩, rfl⟩

/-- A step that raises a fault takes it: no fault leaves the step a choice. -/
theorem eq_raise_of_stepRaises {s t : State} {e : Error} (h : step s = .next t) (he : StepRaises s e) : t = s.raise e := by
  have hraise : step s = .next (s.raise e) := by
    refine step_eq_next.2 ⟨running_of_step h, ?_⟩
    obtain ⟨d, hd, rfl⟩ | ⟨i, hd, hi⟩ := he
    · exact .inl ⟨d, hd, rfl⟩
    · exact .inr ⟨i, hd, .inr ⟨e, hi, rfl⟩⟩
  cases h.symm.trans hraise
  rfl

/-- A step that ends FAULTED took a fault, since no completed instruction ends so. -/
theorem eq_raise_of_faulted {s t : State} (h : step s = .next t) (hf : t.runState = .faulted) : ∃ e, t = s.raise e := by
  obtain ⟨i, heff⟩ | ⟨e, -, ht⟩ := effect_or_raise_of_step h
  · exact absurd hf (not_faulted_of_effect (running_of_step h) heff)
  · exact ⟨e, ht⟩

/-- From a state that meets the invariant, a step that completes an instruction leaves no fault recorded: none was while
the instance ran. -/
theorem noFault_of_effect {i : Instr} {s t : State} (hinv : s.Inv) (h : step s = .next t) (heff : Effect i s t) :
    t.errKind = .none ∧ t.errInfo = 0 := by
  obtain ⟨-, -, hkind, hinfo, -⟩ := frame_of_effect heff
  have hrun : s.runState ≠ .faulted := by simp [running_of_step h]
  rw [hkind, hinfo]
  exact hinv.noFault hrun

/-- Settles O38: the run calls make that one step and then find the instance FAULTED. -/
theorem takingAFault : Obligations.TakingAFault := by
  intro s t h hf
  obtain ⟨e, rfl⟩ := eq_raise_of_faulted h hf
  refine ⟨e, faultedFrom_raise s e, fun dump n => ?_, fun n => ?_⟩
  · rw [runToCompletion_of_step h]
    exact runToCompletion_of_completionResult rfl n
  · rw [runUntilOutput_of_silent h (silent_of_outQ_eq rfl)]
    exact runUntilOutput_of_pauseResult rfl n

/-- Settles O32: a step that ends HALTED took no fault, so it completed an instruction. -/
theorem haltIsNotAFault : Obligations.HaltIsNotAFault := by
  intro s t hinv h hhalt
  obtain ⟨i, heff⟩ | ⟨e, -, rfl⟩ := effect_or_raise_of_step h
  · exact noFault_of_effect hinv h heff
  · cases hhalt

/-! ### InputStarved -/

theorem Error.kind_eq_inputStarved {e : Error} : e.kind = .inputStarved ↔ e = .inputStarved := by
  cases e <;> simp [Error.kind]

/-- A failed decode is OutOfBounds or InvalidInstruction. -/
theorem faultOfDecode_ne_inputStarved (d : DecodeError) : faultOfDecode d ≠ .inputStarved := by
  cases d <;> exact nofun

theorem src_ne_inputStarved (s : State) (o : Operand) : src s o ≠ .error .inputStarved := by
  intro h
  obtain ⟨-, -, he⟩ := src_eq_error.1 h
  cases he

theorem narrow_ne_inputStarved (c : Config) (v : Int) : narrow c v ≠ .error .inputStarved := by
  intro h
  obtain ⟨-, -, he⟩ := narrow_eq_error.1 h
  cases he

/-- IN with an empty queue is the one instruction that raises InputStarved (R153): sources and result addresses raise
OutOfBounds, results raise Overflow. -/
theorem raises_inputStarved {i : Instr} {s : State} :
    Raises i s .inputStarved ↔ s.inQ = [] ∧ ∃ d, i = .inp d := by
  cases i with
  | inp d => simp [Raises]
  | add a b d | mul a b d => simp [Raises, src_ne_inputStarved, narrow_ne_inputStarved]
  | lt a b d | eq a b d | out a | jt a b | jf a b => simp [Raises, src_ne_inputStarved]
  | hlt => simp [Raises]

theorem stepRaises_inputStarved {s : State} :
    StepRaises s .inputStarved ↔ s.inQ = [] ∧ ∃ d, s.decodeNext = .ok (.inp d) := by
  constructor
  · rintro (⟨d, -, hd⟩ | ⟨i, hi, hraise⟩)
    · exact absurd hd.symm (faultOfDecode_ne_inputStarved d)
    · obtain ⟨hq, d, rfl⟩ := raises_inputStarved.1 hraise
      exact ⟨hq, d, hi⟩
  · rintro ⟨hq, d, hd⟩
    exact .inr ⟨.inp d, hd, raises_inputStarved.2 ⟨hq, d, rfl⟩⟩

/-- From a state that meets the invariant, the recorded kind says whether this step raised InputStarved. -/
theorem errKind_eq_inputStarved_of_step {s t : State} (hinv : s.Inv) (h : step s = .next t) :
    t.errKind = .inputStarved ↔ StepRaises s .inputStarved := by
  refine ⟨fun hk => ?_, fun he => eq_raise_of_stepRaises h he ▸ rfl⟩
  obtain ⟨i, heff⟩ | ⟨e, he, rfl⟩ := effect_or_raise_of_step h
  · cases (noFault_of_effect hinv h heff).1.symm.trans hk
  · exact Error.kind_eq_inputStarved.1 hk ▸ he

/-- Settles O27: what a step must have decoded to raise InputStarved, and the state that taking it makes. -/
theorem inputStarvedOnlyFromInput : Obligations.InputStarvedOnlyFromInput := by
  intro s t hinv h
  have hiff := errKind_eq_inputStarved_of_step hinv h
  refine ⟨hiff.trans stepRaises_inputStarved, fun hk => ?_⟩
  obtain rfl := eq_raise_of_stepRaises h (hiff.1 hk)
  exact ⟨rfl, rfl, rfl, fun _ => step_ne_next_of_not_running nofun⟩

end Sys2Proof.Machine
end

section
/-!
SUPPORT. Reset and `run_to_completion` (70_reset_and_hazards.md R180, R184): what a run returns is the recorded result of
the terminal state it ends in, a greater bound returns the same, and the dump lists all cells of memory.
-/

namespace Sys2Proof.Machine

/-- Settles O41: legal arguments make the state of R180 by the law of reset, with memory by the laws of loading an image. -/
theorem resetState : Obligations.ResetState := fun _ image _ hlegal =>
  ⟨_, State.new_of_legal hlegal, Memory.ofImage_len image, Memory.ofImage_read image, rfl, rfl, rfl, rfl, rfl, rfl, rfl⟩

/-! ### The dump -/

@[simp] theorem Memory.dump_length (m : Memory) : m.dump.length = m.len := by simp [Memory.dump]

theorem Memory.dump_getElem? {m : Memory} {k : Nat} (h : k < m.len) : m.dump[k]? = m.read (k : Int) := by
  have hin : m.inb (k : Int) = true := Memory.inb_iff.2 ⟨Int.natCast_nonneg k, Int.ofNat_lt.2 h⟩
  rw [Memory.read_of_inb hin]
  simp [Memory.dump, h]

/-! ### The result of a run -/

/-- A terminal instance answers by its run state; a RUNNING one answers nothing. -/
theorem completionResult_eq_some {dump : Bool} {s : State} {r : CompletionResult} :
    completionResult dump s = some r ↔
      (s.runState = .halted ∧ r = if dump then .memory s.mem.dump else .outputs s.outQ) ∨
      (s.runState = .faulted ∧ r = .machineError s.errKind s.errInfo) := by
  cases hr : s.runState <;> simp [completionResult, hr, eq_comm]

theorem exists_completionResult {s : State} (dump : Bool) (h : s.runState ≠ .running) :
    ∃ r, completionResult dump s = some r := by
  cases hr : s.runState with
  | running => exact absurd hr h
  | halted => exact ⟨_, completionResult_eq_some.2 (.inl ⟨hr, rfl⟩)⟩
  | faulted => exact ⟨_, completionResult_eq_some.2 (.inr ⟨hr, rfl⟩)⟩

/-- A run returns what the state it leaves answers. -/
theorem completionResult_of_runToCompletion {dump : Bool} {n : Nat} {s t : State} {r : CompletionResult}
    (h : runToCompletion dump n s = some (r, t)) : completionResult dump t = some r := by
  induction n generalizing s with
  | zero =>
    obtain ⟨hc, rfl⟩ | ⟨_, _, hn, -⟩ := runToCompletion_cases h
    · exact hc
    · cases hn
  | succ n ih =>
    obtain ⟨hc, rfl⟩ | ⟨_, _, hn, -, hu⟩ := runToCompletion_cases h
    · exact hc
    · cases hn
      exact ih hu

/-- A run that returns within a bound returns the same within any greater one. -/
theorem runToCompletion_of_le {dump : Bool} {n m : Nat} {s t : State} {r : CompletionResult}
    (h : runToCompletion dump n s = some (r, t)) (hm : n ≤ m) : runToCompletion dump m s = some (r, t) := by
  induction m generalizing n s with
  | zero => exact Nat.le_zero.1 hm ▸ h
  | succ m ih =>
    obtain ⟨hc, rfl⟩ | ⟨k, u, rfl, hs, hu⟩ := runToCompletion_cases h
    · exact runToCompletion_of_completionResult hc (m + 1)
    · rw [runToCompletion_of_step hs]
      exact ih hu (Nat.le_of_succ_le_succ hm)

/-- Settles O46: a run ends in a terminal state and returns its result; a run to a reached terminal state returns within
some bound, and so within every greater one. -/
theorem runToCompletion_returns_result : Obligations.RunToCompletion := by
  intro dump s t
  refine ⟨fun n r h => ?_, fun hreach hend => ?_, t.mem.dump_length, fun _ => Memory.dump_getElem?⟩
  · exact ⟨reaches_of_runToCompletion h, completionResult_eq_some.1 (completionResult_of_runToCompletion h)⟩
  · obtain ⟨r, hr⟩ := exists_completionResult dump hend
    obtain ⟨n, hn⟩ := runToCompletion_of_reaches hreach (runToCompletion_of_completionResult hr 0)
    exact ⟨n, r, fun _ => runToCompletion_of_le hn⟩

end Sys2Proof.Machine
end

section
/-!
SUPPORT. The encoder and the decoder (30_encoding.md sections 1, 5 and 6): a canonical header decodes to the kind and the
modes it was made of, and the operand cells after it to the raw values.
-/

namespace Sys2Proof

@[simp] theorem kindOf_opcode (k : Kind) : kindOf k.opcode = some k := by cases k <;> rfl

@[simp] theorem modeOf_digit (m : Mode) : modeOf m.digit = some m := by cases m <;> rfl

theorem Kind.opcode_lt (k : Kind) : k.opcode < 100 := by cases k <;> decide

/-- The decimal fields of a canonical header are the numbers it is the sum of (30_encoding.md R72). -/
theorem fields_of_headerWord (k : Kind) (m0 m1 m2 : Mode) :
    opcodeOf (headerWord k m0.digit m1.digit m2.digit).toNat = k.opcode ∧
      modeDigit (headerWord k m0.digit m1.digit m2.digit).toNat 0 = m0.digit ∧
      modeDigit (headerWord k m0.digit m1.digit m2.digit).toNat 1 = m1.digit ∧
      modeDigit (headerWord k m0.digit m1.digit m2.digit).toNat 2 = m2.digit := by
  have hk := k.opcode_lt
  have h0 := Laws.EncodingShape.digit_le m0
  have h1 := Laws.EncodingShape.digit_le m1
  have h2 := Laws.EncodingShape.digit_le m2
  simp only [headerWord, Int.toNat_natCast, opcodeOf, modeDigit, digit, Nat.reduceAdd, Nat.reducePow]
  omega

/-- The mode that the header of a kind gives an operand: the one its digit stands for, where the kind has the operand or
the digit is 0. -/
theorem operandMode_of_digit {k : Kind} {h i : Nat} {m : Mode} (hd : modeDigit h i = m.digit)
    (hunused : k.operandCount ≤ i → m = .position) : operandMode k h i = some m := by
  rcases lt_or_ge i k.operandCount with hi | hi
  · rw [operandMode_used hi, hd, modeOf_digit]
  · rw [operandMode_unused hi, hunused hi]

/-- A canonical header decodes to its kind and modes. -/
theorem decodeHeader_headerWord {k : Kind} {m0 m1 m2 : Mode} (h0 : k.operandCount ≤ 0 → m0 = .position)
    (h1 : k.operandCount ≤ 1 → m1 = .position) (h2 : k.operandCount ≤ 2 → m2 = .position) :
    decodeHeader (headerWord k m0.digit m1.digit m2.digit) = .ok ⟨k, m0, m1, m2⟩ := by
  obtain ⟨hop, hd0, hd1, hd2⟩ := fields_of_headerWord k m0 m1 m2
  exact decodeHeader_eq_ok.2 ⟨Int.natCast_nonneg _, by rw [hop, kindOf_opcode], operandMode_of_digit hd0 h0,
    operandMode_of_digit hd1 h1, operandMode_of_digit hd2 h2⟩

/-- What the header of an instruction says: its kind and modes, position for an operand it does not have. -/
def Instr.fields : Instr → Header
  | .add a b d => ⟨.add, a.mode, b.mode, d.mode⟩
  | .mul a b d => ⟨.mul, a.mode, b.mode, d.mode⟩
  | .inp d => ⟨.inp, d.mode, .position, .position⟩
  | .out a => ⟨.out, a.mode, .position, .position⟩
  | .jt a b => ⟨.jt, a.mode, b.mode, .position⟩
  | .jf a b => ⟨.jf, a.mode, b.mode, .position⟩
  | .lt a b d => ⟨.lt, a.mode, b.mode, d.mode⟩
  | .eq a b d => ⟨.eq, a.mode, b.mode, d.mode⟩
  | .hlt => ⟨.hlt, .position, .position, .position⟩

theorem Instr.header_eq (i : Instr) :
    i.header = headerWord i.fields.kind i.fields.mode0.digit i.fields.mode1.digit i.fields.mode2.digit := by
  cases i <;> rfl

/-- The mode of an operand that the instruction does not have is position. -/
theorem Instr.fields_unused (i : Instr) :
    (i.fields.kind.operandCount ≤ 0 → i.fields.mode0 = .position) ∧
      (i.fields.kind.operandCount ≤ 1 → i.fields.mode1 = .position) ∧
      (i.fields.kind.operandCount ≤ 2 → i.fields.mode2 = .position) := by
  cases i <;> simp [Instr.fields, Kind.operandCount]

theorem decodeHeader_header (i : Instr) : decodeHeader i.header = .ok i.fields := by
  obtain ⟨h0, h1, h2⟩ := i.fields_unused
  rw [i.header_eq, decodeHeader_headerWord h0 h1 h2]

/-- After the header of an instruction, cells that hold its raw values are decoded to it. -/
theorem decodeOperands_fields {fetch : Int → Option Int} {pc : Int} {i : Instr} (h : cellsAt fetch pc i.raws) :
    decodeOperands fetch pc i.fields = .ok i := by
  cases i with
  | add a b d | mul a b d | lt a b d | eq a b d => exact decodeF3_eq_ok.2 ⟨_, _, _, h, rfl⟩
  | jt a b | jf a b => exact decodeF2_eq_ok.2 ⟨_, _, h, rfl⟩
  | inp d => exact decodeF1_eq_ok.2 ⟨_, h, rfl⟩
  | out a => exact decodeF1_eq_ok.2 ⟨_, h, rfl⟩
  | hlt => rfl

/-- A read port that gives the cells of an instruction gives its header at the pc and its raw values behind. -/
theorem header_and_cellsAt_of_encode {fetch : Int → Option Int} {pc : Int} {i : Instr}
    (h : ∀ k : Nat, k < i.size → fetch (pc + (k : Int)) = (encode i)[k]?) :
    fetch pc = some i.header ∧ cellsAt fetch pc i.raws := by
  have hsize : i.size = 1 + i.raws.length := by rw [i.raws_length, Instr.size]
  refine ⟨by simpa [encode] using h 0 (by omega), fun k hk => ?_⟩
  have hcell := h (k + 1) (by omega)
  rw [show pc + ((k + 1 : Nat) : Int) = pc + 1 + (k : Int) by omega] at hcell
  simpa [encode, hk] using hcell

/-- Settles O1: the canonical header decodes to the instruction's kind and modes, and the cells behind it are its raw
values. -/
theorem encodedInstructionDecodesBack : Obligations.EncodedInstructionDecodesBack := by
  intro i fetch pc h
  obtain ⟨hheader, hcells⟩ := header_and_cellsAt_of_encode h
  exact decode_eq_ok.2 ⟨i.header, i.fields, hheader, decodeHeader_header i, decodeOperands_fields hcells⟩

end Sys2Proof

namespace Sys2Proof.Machine

/-- Settles O14: one case of `step` each. -/
theorem stepRunsDecodedInstruction : Obligations.StepRunsDecodedInstruction :=
  fun s hrun => ⟨fun i hd => by simp [step, hrun, hd], fun e hd => by simp [step, hrun, hd]⟩

/-- Settles O15: the stored encoding decodes to the instruction, and a step is exec of what decodes. -/
theorem storedEncodingRuns : Obligations.StoredEncodingRuns := fun s i hrun h =>
  (stepRunsDecodedInstruction s hrun).1 i (encodedInstructionDecodesBack i s.mem.read s.pc h)

end Sys2Proof.Machine
end

section
/-!
SUPPORT. What the decoder looks at (30_encoding.md sections 2, 4 and 5): the decimal digits a kind uses, and as many cells
after the header as the kind has operands.
-/

namespace Sys2Proof

/-! ### The digits a kind uses -/

/-- The mode of an operand as the claims say it: its digit where the kind has the operand, else position. -/
theorem operandMode_eq_some {k : Kind} {h i : Nat} {m : Mode} :
    operandMode k h i = some m ↔ if i < k.operandCount then modeOf (modeDigit h i) = some m else m = .position := by
  unfold operandMode
  split
  · rfl
  · simp [eq_comm]

/-- Settles O2: the header checks of the decoder, with the digits written as quotients and remainders. -/
theorem headerFieldsAreDecimalDigits : Obligations.HeaderFieldsAreDecimalDigits := by
  intro v h
  rw [decodeHeader_eq_ok, operandMode_eq_some, operandMode_eq_some, operandMode_eq_some]
  rfl

/-- A digit that stands for a mode is 0 or 1. -/
theorem lt_two_of_modeOf {n : Nat} {m : Mode} (h : modeOf n = some m) : n < 2 := by
  unfold modeOf at h
  split at h
  · decide
  · decide
  · cases h

theorem Kind.operandCount_le (k : Kind) : k.operandCount ≤ 3 := by cases k <;> decide

/-- Every mode digit that a decoded header uses is 0 or 1 (30_encoding.md R67). -/
theorem modeDigit_lt_of_decodeHeader {v : Int} {h : Header} (hd : decodeHeader v = .ok h) {i : Nat}
    (hi : i < h.kind.operandCount) : modeDigit v.toNat i < 2 := by
  obtain ⟨-, -, h0, h1, h2⟩ := decodeHeader_eq_ok.1 hd
  have hmode : ∃ m, operandMode h.kind v.toNat i = some m := by
    have hi3 : i < 3 := hi.trans_le h.kind.operandCount_le
    match i, hi3 with
    | 0, _ => exact ⟨_, h0⟩
    | 1, _ => exact ⟨_, h1⟩
    | 2, _ => exact ⟨_, h2⟩
  obtain ⟨m, hm⟩ := hmode
  exact lt_two_of_modeOf (operandMode_used hi ▸ hm)

/-- The kind a decoded header has is the one its opcode field selects. -/
theorem kind_of_decodeHeader {v : Int} {h : Header} (hd : decodeHeader v = .ok h) :
    kindOf (v.toNat % 100) = some h.kind := (decodeHeader_eq_ok.1 hd).2.1

/-! ### Headers that agree in the digits a kind uses -/

/-- A digit below the `n`-th depends on the remainder modulo `10^n` only. -/
theorem digit_congr {x y n k : Nat} (h : x % 10 ^ n = y % 10 ^ n) (hk : k < n) : digit x k = digit y k := by
  have low : ∀ z, digit z k = z % 10 ^ n / 10 ^ k % 10 := by
    intro z
    obtain ⟨j, rfl⟩ : ∃ j, n = k + (1 + j) := ⟨n - k - 1, by omega⟩
    rw [pow_add, Nat.mod_mul_right_div_self, pow_add, pow_one, Nat.mod_mul_right_mod, digit]
  rw [low, low, h]

/-- Headers that agree in the digits of the opcode and of the modes a kind uses decode alike. -/
theorem decodeHeader_congr {v v' : Int} {h : Header} (hv' : 0 ≤ v')
    (heq : v.toNat % 10 ^ (h.kind.operandCount + 2) = v'.toNat % 10 ^ (h.kind.operandCount + 2))
    (hd : decodeHeader v = .ok h) : decodeHeader v' = .ok h := by
  obtain ⟨-, hk, h0, h1, h2⟩ := decodeHeader_eq_ok.1 hd
  have hop : opcodeOf v'.toNat = opcodeOf v.toNat := by
    have hdvd : 100 ∣ 10 ^ (h.kind.operandCount + 2) := Dvd.intro_left _ (pow_add 10 _ 2).symm
    rw [opcodeOf, opcodeOf, ← Nat.mod_mod_of_dvd v.toNat hdvd, heq, Nat.mod_mod_of_dvd v'.toNat hdvd]
  have hmode : ∀ i, operandMode h.kind v'.toNat i = operandMode h.kind v.toNat i := by
    intro i
    rcases lt_or_ge i h.kind.operandCount with hi | hi
    · rw [operandMode_used hi, operandMode_used hi, modeDigit, modeDigit, digit_congr heq (by omega)]
    · rw [operandMode_unused hi, operandMode_unused hi]
  exact decodeHeader_eq_ok.2 ⟨hv', hop ▸ hk, hmode 0 ▸ h0, hmode 1 ▸ h1, hmode 2 ▸ h2⟩

/-! ### The cells the decoder reads -/

theorem rawOperand_congr {fetch fetch' : Int → Option Int} {pc : Int} {i : Nat}
    (h : fetch' (pc + 1 + (i : Int)) = fetch (pc + 1 + (i : Int))) : rawOperand fetch' pc i = rawOperand fetch pc i := by
  rw [rawOperand, rawOperand, h]

/-- Operand assembly reads as many cells as the kind has operands. -/
theorem decodeOperands_congr {fetch fetch' : Int → Option Int} {pc : Int} {h : Header}
    (hcells : ∀ j : Nat, j < h.kind.operandCount → fetch' (pc + 1 + (j : Int)) = fetch (pc + 1 + (j : Int))) :
    decodeOperands fetch' pc h = decodeOperands fetch pc h := by
  have hraw : ∀ j : Nat, j < h.kind.operandCount → rawOperand fetch' pc j = rawOperand fetch pc j :=
    fun j hj => rawOperand_congr (hcells j hj)
  obtain ⟨k, m0, m1, m2⟩ := h
  cases k <;> simp only [Kind.operandCount] at hraw
  case add | mul | lt | eq =>
    simp only [decodeOperands, decodeF3, hraw 0 (by decide), hraw 1 (by decide), hraw 2 (by decide)]
  case jt | jf => simp only [decodeOperands, decodeF2, hraw 0 (by decide), hraw 1 (by decide)]
  case inp | out => simp only [decodeOperands, decodeF1, hraw 0 (by decide)]
  case hlt => rfl

/-- Settles O6: the header is read from the cell at the pc, and the operands from the cells its kind names. -/
theorem decoderReadsOnlyItsCells : Obligations.DecoderReadsOnlyItsCells := by
  intro fetch fetch' pc hpc hcells
  unfold decode
  rw [hpc]
  cases hf : fetch pc with
  | none => rfl
  | some v =>
    cases hd : decodeHeader v with
    | error e => simp only [hd]
    | ok h =>
      simp only [hd]
      exact decodeOperands_congr (hcells v h.kind hf (kind_of_decodeHeader hd))

/-- Settles O5: the two headers decode alike, and the operand cells are none of them the header's. -/
theorem unusedHighDigitsAreIgnored : Obligations.UnusedHighDigitsAreIgnored := by
  intro fetch fetch' pc v v' k i hv hv' _ hpos' hk heq hcells hi
  obtain ⟨w, h, hw, hd, hops⟩ := decode_eq_ok.1 hi
  cases hv.symm.trans hw
  cases hk.symm.trans (kind_of_decodeHeader hd)
  have hoperands : decodeOperands fetch' pc h = decodeOperands fetch pc h :=
    decodeOperands_congr fun j _ => hcells _ (by omega)
  exact decode_eq_ok.2 ⟨v', h, hv', decodeHeader_congr hpos' heq hd, hoperands.trans hops⟩

/-- Settles O7: each list is the cells of the named instruction, so decoding it is evaluation; in the last the digits
above 99 are unused. -/
theorem sampleHeadersDecode : Obligations.SampleHeadersDecode := ⟨rfl, rfl, rfl, rfl, rfl, rfl, rfl, rfl, rfl⟩

end Sys2Proof

namespace Sys2Proof.Machine

/-- Settles O4: a header that decoded would be non-negative and use digits below 2 alone. -/
theorem negativeHeaderAndBadModeFault : Obligations.NegativeHeaderAndBadModeFault := by
  intro s v hrun hread
  cases hd : decodeHeader v with
  | error e =>
    have hfault := stepFaults_of_decodeHeader hrun hread hd
    exact ⟨fun _ => hfault, fun _ _ _ _ _ _ => hfault⟩
  | ok h =>
    obtain ⟨hpos, -⟩ := decodeHeader_eq_ok.1 hd
    refine ⟨fun hneg => absurd hpos hneg.not_ge, fun _ k i hk hi hdigit => ?_⟩
    cases hk.symm.trans (kind_of_decodeHeader hd)
    exact absurd hdigit (modeDigit_lt_of_decodeHeader hd hi).not_ge

end Sys2Proof.Machine
end

section
/-!
SUPPORT. Accesses to memory (20_memory.md sections 1, 4 and 5): which are made, what a read gives after a write, and that
the reads fix the data.
-/

namespace Sys2Proof.Machine

/-- Settles O9: by mode digit, and for digit 1 by the parameter. -/
theorem writeTargetAddress : Obligations.WriteTargetAddress :=
  fun _ _ _ => ⟨rfl, fun hcell => by simp [dest, hcell, operandCell], fun hlit => by simp [dest, hlit]⟩

theorem exists_memRead_of_inb {s : State} {a : Int} (h : s.mem.inb a = true) : ∃ w, s.memRead a = .ok w :=
  ⟨_, State.memRead_eq_ok.2 (Memory.read_of_inb h)⟩

/-- Settles O11: the read port after a write, at the address written and at another. -/
theorem readReturnsLastWrite : Obligations.ReadReturnsLastWrite := by
  intro s t a v h
  have hread := State.read_of_memWrite h
  refine ⟨State.memRead_eq_ok.2 (by simp [hread]), fun b hb => ?_⟩
  simp only [State.memRead, hread, if_neg hb]

/-! ### Fetches outside memory -/

/-- A RUNNING instance whose pc is outside memory takes OutOfBounds of the pc. -/
theorem stepFaults_of_pc {s : State} (hrun : s.runState = .running) (h : s.mem.inb s.pc = false) :
    StepFaults s (.outOfBounds s.pc) :=
  stepFaults_of_decodeNext (e := .fetchOutOfBounds s.pc) hrun (decode_eq_error.2 (.inl ⟨Memory.read_eq_none.2 h, rfl⟩))

/-- The first operand cell outside memory is the one at N. -/
theorem firstMissing_of_len {m : Memory} {pc : Int} {n j : Nat} (hpc : m.inb pc = true) (hj : j < n)
    (hlast : pc + (j : Int) < (m.len : Int)) (hlen : (m.len : Int) ≤ pc + 1 + (j : Int)) :
    firstMissing m.read pc n j := by
  obtain ⟨hpos, -⟩ := Memory.inb_iff.1 hpc
  refine ⟨hj, Memory.read_eq_none.2 (Memory.inb_eq_false.2 (.inr hlen)), fun i hi hnone => ?_⟩
  rw [Memory.read_eq_none, Memory.inb_eq_false] at hnone
  omega

/-- Settles O10: accesses by the bounds check, fetches by why the decode fails. -/
theorem outOfBoundsAccessesFault : Obligations.OutOfBoundsAccessesFault := by
  intro s
  refine ⟨fun a v hout => ?_, fun a v h0 hlen => ?_, fun hrun hpc => stepFaults_of_pc hrun (Memory.inb_eq_false.2 hpc),
    fun hrun v h j hread hd hj hlast hlen => ?_⟩
  · have hinb : s.mem.inb a = false := Memory.inb_eq_false.2 hout
    exact ⟨State.memRead_eq_error.2 ⟨hinb, rfl⟩, State.memWrite_eq_error.2 ⟨hinb, rfl⟩⟩
  · have hinb : s.mem.inb a = true := Memory.inb_iff.2 ⟨h0, hlen⟩
    exact ⟨exists_memRead_of_inb hinb, State.memWrite_eq_ok.2 ⟨hinb, rfl⟩⟩
  · have hmissing := firstMissing_of_len (Memory.inb_of_read hread) hj hlast hlen
    have hdec : s.decodeNext = .error (.operandOutOfBounds (s.pc + 1 + (j : Int))) :=
      decode_eq_error.2 (.inr (.inr ⟨v, h, j, hread, hd, hmissing, rfl⟩))
    exact stepFaults_of_decodeNext hrun hdec

/-! ### Reads fix the data -/

/-- In canonical form the pairs listed are the non-zero cells, as reads give them. -/
theorem Memory.mem_cells_iff {m : Memory} (hm : m.wf) {c : Nat × Int} :
    c ∈ m.cells ↔ c.2 ≠ 0 ∧ m.read (c.1 : Int) = some c.2 := by
  obtain ⟨hsorted, hcells⟩ := hm
  constructor
  · intro hc
    obtain ⟨hlen, hne⟩ := hcells c hc
    have hinb : m.inb (c.1 : Int) = true := Memory.inb_iff.2 ⟨Int.natCast_nonneg _, Int.ofNat_lt.2 hlen⟩
    exact ⟨hne, (Memory.read_of_inb hinb).trans (congrArg some (lookupCell_of_mem hsorted hc))⟩
  · obtain ⟨a, w⟩ := c
    rintro ⟨hne, hread⟩
    obtain rfl : lookupCell m.cells a = w :=
      Option.some.inj ((Memory.read_of_inb (Memory.inb_of_read hread)).symm.trans hread)
    exact mem_of_lookupCell hne

/-- Lists of pairs with rising addresses and the same pairs are equal. -/
theorem cells_ext {l l' : List (Nat × Int)} (hl : l.Pairwise fun x y => x.1 < y.1)
    (hl' : l'.Pairwise fun x y => x.1 < y.1) (h : ∀ c, c ∈ l ↔ c ∈ l') : l = l' := by
  have nodup : ∀ {k : List (Nat × Int)}, (k.Pairwise fun x y => x.1 < y.1) → k.Nodup :=
    fun hk => hk.imp fun hlt heq => absurd (congrArg Prod.fst heq) hlt.ne
  have hperm : l.Perm l' := (List.perm_ext_iff_of_nodup (nodup hl) (nodup hl')).2 h
  exact hperm.eq_of_pairwise (fun _ _ _ _ hlt hgt => absurd hlt hgt.asymm) hl hl'

/-- Settles O13: the listed pairs are the same, since they are what the reads give. -/
theorem equalReadsAreEqualMemories : Obligations.EqualReadsAreEqualMemories := by
  intro m m' hm hm' hlen hread
  have hcells : m.cells = m'.cells := cells_ext hm.1 hm'.1 fun c => by
    rw [Memory.mem_cells_iff hm, Memory.mem_cells_iff hm', hread]
  obtain ⟨len, cells⟩ := m
  obtain ⟨len', cells'⟩ := m'
  cases hlen
  cases hcells
  rfl

end Sys2Proof.Machine
end

section
/-!
SUPPORT. The step as a whole (40_execution_cycle.md section 1): it exists exactly on RUNNING instances, halt is one of its
instructions, and a jump leaves its target to the next step.
-/

namespace Sys2Proof.Machine

/-- exec commits the result of its instruction, and a commit answers a next state whatever the result is. -/
theorem exists_exec_next (i : Instr) (s : State) : ∃ t, exec i s = .next t := by
  have commit : ∀ r, ∃ t, s.commit r = .next t := fun r => by cases r <;> exact ⟨_, rfl⟩
  cases i with
  | hlt => exact ⟨s.halt, rfl⟩
  | add | mul | inp | out | jt | jf | lt | eq => exact commit _

/-- Settles O16: by totality of exec, and a failed decode has its fault as the next state. -/
theorem runningInstanceAlwaysSteps : Obligations.RunningInstanceAlwaysSteps := by
  refine ⟨exists_exec_next, fun s hrun => ?_⟩
  obtain ⟨hok, herror⟩ := stepRunsDecodedInstruction s hrun
  cases hd : s.decodeNext with
  | error e => exact ⟨_, herror e hd⟩
  | ok i => exact hok i hd ▸ exists_exec_next i s

/-- Settles O17: no step leads on from a terminal state, so by induction nothing else is reached. -/
theorem terminalStatesHaveNoStep : Obligations.TerminalStatesHaveNoStep := by
  refine fun s => ⟨fun hf => by simp [step, hf], fun hh => by simp [step, hh], fun hend t hreach => ?_⟩
  induction hreach with
  | refl => rfl
  | tail _ hs ih => exact absurd hs (step_ne_next_of_not_running (ih.symm ▸ hend))

/-! ### Halt -/

/-- A RUNNING instance that decoded the halt signal steps to HALTED. -/
theorem step_of_hlt {s : State} (hrun : s.runState = .running) (hd : s.decodeNext = .ok .hlt) : step s = .next s.halt :=
  (stepRunsDecodedInstruction s hrun).1 .hlt hd

/-- Every non-negative header ending in 99 decodes to halt; a halt header has no operand cells. -/
theorem decodeNext_of_halt_header {s : State} {v : Int} (hread : s.mem.read s.pc = some v) (h0 : 0 ≤ v)
    (h99 : v % 100 = 99) : s.decodeNext = .ok .hlt := by
  have hop : opcodeOf v.toNat = 99 := by
    unfold opcodeOf
    omega
  have hheader : decodeHeader v = .ok Instr.hlt.fields := decodeHeader_eq_ok.2 ⟨h0, by rw [hop]; rfl, rfl, rfl, rfl⟩
  exact decode_eq_ok.2 ⟨v, Instr.hlt.fields, hread, hheader, rfl⟩

/-- Settles O31: executing HLT is `State.halt`, and such a header decodes to HLT. -/
theorem haltInstruction : Obligations.HaltInstruction :=
  fun s => ⟨⟨s.halt, rfl, rfl⟩, fun hrun _ hread h0 h99 => step_of_hlt hrun (decodeNext_of_halt_header hread h0 h99)⟩

/-- Settles O33: every other instruction leaves RUNNING where it completes, and a fault makes FAULTED. -/
theorem onlyHaltHalts : Obligations.OnlyHaltHalts := by
  intro s t h
  refine ⟨fun hhalt => ?_, fun hd => ?_⟩
  · obtain ⟨hrun, ⟨e, -, rfl⟩ | ⟨i, hd, heff | ⟨e, -, rfl⟩⟩⟩ := step_eq_next.1 h
    · cases hhalt
    · by_cases hi : i = .hlt
      · exact hi ▸ hd
      · cases (hrun.symm.trans (sameStatus_of_effect heff hi).runState.symm).trans hhalt
    · cases hhalt
  · cases h.symm.trans (step_of_hlt (running_of_step h) hd)
    rfl

/-! ### Jumps -/

/-- A decoded instruction whose effect is known gives the step. -/
theorem step_of_effect {i : Instr} {s t : State} (hrun : s.runState = .running) (hd : s.decodeNext = .ok i)
    (heff : Effect i s t) : step s = .next t :=
  step_eq_next.2 ⟨hrun, .inr ⟨i, hd, .inl heff⟩⟩

/-- Settles O30: the taken jump sets the pc alone, so the next fetch is at the target in the same memory. -/
theorem jumpTargetIsUnchecked : Obligations.JumpTargetIsUnchecked := by
  intro s a b c p hrun hjump hc hp hout
  have hstep : step s = .next (s.setPc p) := by
    obtain ⟨hd, htaken⟩ | ⟨hd, htaken⟩ := hjump
    · exact step_of_effect hrun hd ⟨c, p, hc, hp, (if_pos htaken).symm⟩
    · exact step_of_effect hrun hd ⟨c, p, hc, hp, (if_pos htaken).symm⟩
  have hinb : (s.setPc p).mem.inb (s.setPc p).pc = false := Memory.inb_eq_false.2 hout
  exact ⟨s.setPc p, hstep, rfl, hrun, rfl, stepFaults_of_pc hrun hinb⟩

end Sys2Proof.Machine
end

section
/-!
SUPPORT. The faults a step can take, with what their payloads say (60_exceptions.md section 1): an address outside memory,
the header at the pc, or the word 0.
-/

namespace Sys2Proof.Machine

/-- From a state that meets the invariant, a step that leaves a fault recorded took it. -/
theorem raise_of_errKind {s t : State} (hinv : s.Inv) (h : step s = .next t) (hk : t.errKind ≠ .none) :
    ∃ e, StepRaises s e ∧ t = s.raise e := by
  obtain ⟨i, heff⟩ | hraise := effect_or_raise_of_step h
  · exact absurd (noFault_of_effect hinv h heff).1 hk
  · exact hraise

/-- Every fault of a step: a bad address, a header that is none, or one without a payload. -/
theorem stepRaises_cases {s : State} {e : Error} (h : StepRaises s e) :
    (∃ a, s.mem.inb a = false ∧ e = .outOfBounds a) ∨
      (∃ v d, s.mem.read s.pc = some v ∧ decodeHeader v = .error d ∧ e = .invalidInstruction v) ∨
      e = .inputStarved ∨ e = .overflow := by
  obtain ⟨d, hd, rfl⟩ | ⟨i, -, hraise⟩ := h
  · obtain ⟨hfetch, rfl⟩ | ⟨v, hread, hheader⟩ | ⟨v, hd, j, -, -, ⟨-, hnone, -⟩, rfl⟩ := decode_eq_error.1 hd
    · exact .inl ⟨s.pc, Memory.read_eq_none.1 hfetch, rfl⟩
    · exact .inr (.inl ⟨v, d, hread, hheader, faultOfDecode_of_decodeHeader hheader⟩)
    · exact .inl ⟨_, Memory.read_eq_none.1 hnone, rfl⟩
  · obtain rfl | rfl | hout := raises_cases hraise
    · exact .inr (.inr (.inr rfl))
    · exact .inr (.inr (.inl rfl))
    · exact .inl hout

/-- Settles O39: of the faults a step can take, InvalidInstruction is the one of the header. -/
theorem invalidInstructionComesFromTheHeader : Obligations.InvalidInstructionComesFromTheHeader := by
  intro s t hinv h hk
  obtain ⟨e, he, rfl⟩ := raise_of_errKind hinv h (by simp [hk])
  obtain ⟨a, -, rfl⟩ | ⟨v, d, hread, hheader, rfl⟩ | rfl | rfl := stepRaises_cases he
  · cases hk
  · exact ⟨hread, ⟨d, hheader⟩, faultedFrom_raise s _⟩
  · cases hk
  · cases hk

/-- Settles O40: of the faults a step can take, OutOfBounds is the one of a bad address. -/
theorem outOfBoundsCarriesABadAddress : Obligations.OutOfBoundsCarriesABadAddress := by
  intro s t hinv h hk
  obtain ⟨e, he, rfl⟩ := raise_of_errKind hinv h (by simp [hk])
  obtain ⟨a, hinb, rfl⟩ | ⟨v, d, -, -, rfl⟩ | rfl | rfl := stepRaises_cases he
  · exact ⟨Memory.inb_eq_false.1 hinb, faultedFrom_raise s _⟩
  · cases hk
  · cases hk
  · cases hk

/-! ### Overflow -/

theorem Error.kind_eq_overflow {e : Error} : e.kind = .overflow ↔ e = .overflow := by
  cases e <;> simp [Error.kind]

theorem src_ne_overflow (s : State) (o : Operand) : src s o ≠ .error .overflow := by
  intro h
  obtain ⟨-, -, he⟩ := src_eq_error.1 h
  cases he

theorem narrow_eq_overflow {c : Config} {v : Int} :
    narrow c v = .error .overflow ↔ c.isWord v = false ∧ c.overflow = .fault := by
  simp [narrow_eq_error]

/-- Overflow is the fault of an ADD or MUL whose sources read and whose exact result is no word, under OVERFLOW = FAULT
(R154): sources and result addresses raise OutOfBounds. -/
theorem raises_overflow {i : Instr} {s : State} (h : Raises i s .overflow) :
    s.config.overflow = .fault ∧ ∃ a b d x y, src s a = .ok x ∧ src s b = .ok y ∧
      ((i = .add a b d ∧ s.config.isWord (x + y) = false) ∨ (i = .mul a b d ∧ s.config.isWord (x * y) = false)) := by
  cases i with
  | add a b d =>
    simp only [Raises, src_ne_overflow, narrow_eq_overflow, reduceCtorEq, and_false, exists_false, false_or, or_false] at h
    obtain ⟨x, y, hx, hy, hword, hover⟩ := h
    exact ⟨hover, a, b, d, x, y, hx, hy, .inl ⟨rfl, hword⟩⟩
  | mul a b d =>
    simp only [Raises, src_ne_overflow, narrow_eq_overflow, reduceCtorEq, and_false, exists_false, false_or, or_false] at h
    obtain ⟨x, y, hx, hy, hword, hover⟩ := h
    exact ⟨hover, a, b, d, x, y, hx, hy, .inr ⟨rfl, hword⟩⟩
  | lt | eq | inp | out | jt | jf | hlt => simp [Raises, src_ne_overflow] at h

/-- A width that some integer does not fit is finite. -/
theorem xlen_ne_none_of_isWord {c : Config} {v : Int} (h : c.isWord v = false) : c.xlen ≠ none :=
  fun hx => nomatch (Config.isWord_of_unbounded hx v).symm.trans h

theorem faultOfDecode_ne_overflow (d : DecodeError) : faultOfDecode d ≠ .overflow := by cases d <;> exact nofun

/-- A step raises Overflow for such an ADD or MUL alone. -/
theorem stepRaises_overflow {s : State} (h : StepRaises s .overflow) :
    s.config.overflow = .fault ∧ s.config.xlen ≠ none ∧ ∃ a b d x y, src s a = .ok x ∧ src s b = .ok y ∧
      ((s.decodeNext = .ok (.add a b d) ∧ s.config.isWord (x + y) = false) ∨
       (s.decodeNext = .ok (.mul a b d) ∧ s.config.isWord (x * y) = false)) := by
  obtain ⟨d, -, hd⟩ | ⟨i, hi, hraise⟩ := h
  · exact absurd hd.symm (faultOfDecode_ne_overflow d)
  · obtain ⟨hover, a, b, d, x, y, hx, hy, hcase⟩ := raises_overflow hraise
    have hxlen : s.config.xlen ≠ none := by
      obtain ⟨-, hword⟩ | ⟨-, hword⟩ := hcase <;> exact xlen_ne_none_of_isWord hword
    exact ⟨hover, hxlen, a, b, d, x, y, hx, hy,
      hcase.imp (fun ⟨hadd, hword⟩ => ⟨hadd ▸ hi, hword⟩) fun ⟨hmul, hword⟩ => ⟨hmul ▸ hi, hword⟩⟩

/-- Settles O23: of the faults a step can take, the one recorded is Overflow, and what raises it is known. -/
theorem overflowOnlyFromArithmetic : Obligations.OverflowOnlyFromArithmetic := by
  intro s t hinv h hk
  obtain ⟨e, he, rfl⟩ := raise_of_errKind hinv h (by simp [hk])
  obtain rfl := Error.kind_eq_overflow.1 hk
  obtain ⟨hover, hxlen, hfrom⟩ := stepRaises_overflow he
  exact ⟨hover, hxlen, rfl, rfl, hfrom⟩

end Sys2Proof.Machine
end

section
/-!
SUPPORT. The invariant of an instance (10_state.md, 00_scope.md section 4): reset establishes it, every completed
instruction and every fault keeps it, and so do the host's operations.
-/

namespace Sys2Proof.Machine

/-! ### Reset -/

/-- Settles O43: legal arguments are words in a memory of legal length, and loading an image gives the canonical form. -/
theorem newInstanceMeetsInvariant : Obligations.NewInstanceMeetsInvariant := by
  intro c image inputs s h
  cases hlegal : legalReset c image inputs with
  | false => simp [State.new_of_illegal hlegal] at h
  | true =>
    rw [State.new_of_legal hlegal] at h
    cases h
    obtain ⟨hc, himage, hinputs, hlen⟩ := legalReset_iff.1 hlegal
    have hzero : c.isWord 0 = true := Config.isWord_small hc (by decide) (by decide)
    exact {
      legal := hc
      memForm := Memory.wf_load image Memory.wf_empty
      memLength := (Memory.ofImage_len image).symm ▸ hlen
      memWords := Memory.holdsWords_load image himage nofun
      pcWord := hzero
      inWords := hinputs
      outWords := nofun
      infoWord := hzero
      noFault := fun _ => ⟨rfl, rfl⟩
      faultKind := nofun
      plainInfo := fun _ => rfl
      overflowOnly := nofun }

/-- Settles O44: it is what reset makes of the empty image. -/
theorem resetMeetsInvariant : Obligations.ResetMeetsInvariant :=
  newInstanceMeetsInvariant Config.reference [] [] State.reset rfl

/-- Settles O42: each of the two makes a check of reset's arguments fail. -/
theorem illegalResetIsRefused : Obligations.IllegalResetIsRefused := by
  intro c image inputs h
  refine State.new_of_illegal (Bool.eq_false_iff.2 fun hlegal => ?_)
  obtain ⟨-, himage, hinputs, hlen⟩ := legalReset_iff.1 hlegal
  obtain ⟨v, hv, hword⟩ | hlong := h
  · have hisWord : c.isWord v = true := (List.mem_append.1 hv).elim (himage v) (hinputs v)
    cases hword.symm.trans hisWord
  · cases hlong.symm.trans hlen

/-! ### What an instruction reads and makes is a word -/

section Words

variable {i : Instr} {s t : State}

theorem State.Inv.isWord_zero (hinv : s.Inv) : s.config.isWord 0 = true :=
  Config.isWord_small hinv.legal (by decide) (by decide)

theorem State.Inv.isWord_of_read (hinv : s.Inv) {a v : Int} (h : s.mem.read a = some v) : s.config.isWord v = true :=
  Memory.isWord_of_read hinv.isWord_zero hinv.memWords h

/-- The pc of a fetched header is an address of memory, and those a little past it are words. -/
theorem State.Inv.isWord_near_pc (hinv : s.Inv) (hpc : s.mem.inb s.pc = true) {k : Nat} (hk : k ≤ 4) :
    s.config.isWord (s.pc + (k : Int)) = true := by
  obtain ⟨h0, hlen⟩ := Memory.inb_iff.1 hpc
  exact Config.isWord_near hinv.memLength (by omega) (by omega)

theorem inb_pc_of_decodeNext (hd : s.decodeNext = .ok i) : s.mem.inb s.pc = true := by
  obtain ⟨v, hread, -⟩ := cells_of_decode hd
  exact Memory.inb_of_read hread

/-- The raw values of a decoded instruction come from memory. -/
theorem State.Inv.isWord_raw (hinv : s.Inv) (hd : s.decodeNext = .ok i) {r : Int} (hr : r ∈ i.raws) :
    s.config.isWord r = true := by
  obtain ⟨-, -, -, -, hcells⟩ := cells_of_decode hd
  obtain ⟨k, hk, rfl⟩ := List.mem_iff_getElem.1 hr
  exact hinv.isWord_of_read (hcells k hk)

theorem State.Inv.isWord_src (hinv : s.Inv) {o : Operand} {v : Int} (hraw : s.config.isWord o.raw = true)
    (h : src s o = .ok v) : s.config.isWord v = true := by
  obtain ⟨-, rfl⟩ | ⟨-, hread⟩ := src_eq_ok.1 h
  · exact hraw
  · exact hinv.isWord_of_read hread

theorem State.Inv.isWord_narrow (hinv : s.Inv) {v r : Int} (h : narrow s.config v = .ok r) : s.config.isWord r = true := by
  obtain ⟨hword, rfl⟩ | ⟨-, -, rfl⟩ := narrow_eq_ok.1 h
  · exact hword
  · exact Config.isWord_wrapWord hinv.legal v

theorem State.Inv.isWord_truthWord (hinv : s.Inv) (b : Bool) : s.config.isWord (truthWord b) = true := by
  cases b <;> exact Config.isWord_small hinv.legal (by decide) (by decide)

/-- A completed instruction leaves memory, or writes a word to a cell of it. -/
theorem State.Inv.mem_of_effect (hinv : s.Inv) (heff : Effect i s t) :
    t.mem = s.mem ∨ ∃ a r, s.mem.inb a = true ∧ s.config.isWord r = true ∧ t.mem = s.mem.write a r := by
  cases i with
  | add a b d | mul a b d =>
    obtain ⟨x, y, r, -, -, hr, hinb, rfl⟩ := heff
    exact .inr ⟨_, r, hinb, hinv.isWord_narrow hr, rfl⟩
  | lt a b d | eq a b d =>
    obtain ⟨x, y, -, -, hinb, rfl⟩ := heff
    exact .inr ⟨_, _, hinb, hinv.isWord_truthWord _, rfl⟩
  | inp d =>
    obtain ⟨v, rest, hq, hinb, rfl⟩ := heff
    exact .inr ⟨_, v, hinb, hinv.inWords v (by simp [hq]), rfl⟩
  | out a =>
    obtain ⟨_, _, rfl⟩ := heff
    exact .inl rfl
  | jt a b | jf a b =>
    obtain ⟨c, p, -, -, rfl⟩ := heff
    split <;> exact .inl rfl
  | hlt =>
    cases heff
    exact .inl rfl

/-- The pc after a completed instruction is past its cells, unchanged, or the target of a jump, and a word each time. -/
theorem State.Inv.isWord_pc_of_effect (hinv : s.Inv) (hd : s.decodeNext = .ok i) (heff : Effect i s t) :
    s.config.isWord t.pc = true := by
  have next : ∀ k ≤ 4, s.config.isWord (s.pc + (k : Nat)) = true :=
    fun k hk => hinv.isWord_near_pc (inb_pc_of_decodeNext hd) hk
  cases i with
  | add a b d | mul a b d =>
    obtain ⟨_, _, _, _, _, _, _, rfl⟩ := heff
    exact next 4 le_rfl
  | lt a b d | eq a b d =>
    obtain ⟨_, _, _, _, _, rfl⟩ := heff
    exact next 4 le_rfl
  | inp d =>
    obtain ⟨_, _, _, _, rfl⟩ := heff
    exact next 2 (by decide)
  | out a =>
    obtain ⟨_, _, rfl⟩ := heff
    exact next 2 (by decide)
  | jt a b | jf a b =>
    obtain ⟨c, p, -, hp, rfl⟩ := heff
    split
    · exact hinv.isWord_src (hinv.isWord_raw hd (by simp [Instr.raws])) hp
    · exact next 3 (by decide)
  | hlt =>
    cases heff
    exact hinv.pcWord

/-- Every output of a completed instruction was there or is the word of an OUT. -/
theorem State.Inv.outWords_of_effect (hinv : s.Inv) (hd : s.decodeNext = .ok i) (heff : Effect i s t) :
    ∀ v ∈ t.outQ, s.config.isWord v = true := by
  by_cases hi : ∃ a, i = .out a
  · obtain ⟨a, rfl⟩ := hi
    obtain ⟨v, hv, rfl⟩ := heff
    have hword : s.config.isWord v = true := hinv.isWord_src (hinv.isWord_raw hd (by simp [Instr.raws])) hv
    simpa [or_imp, forall_and, hword] using hinv.outWords
  · rw [outQ_of_effect heff fun a ha => hi ⟨a, ha⟩]
    exact hinv.outWords

/-! ### Payloads are words -/

theorem dest_cases (s : State) (k : Nat) (d : Target) : dest s k d = d.raw ∨ dest s k d = operandCell s k := by
  obtain ⟨mode, raw⟩ := d
  cases mode
  · exact .inl rfl
  · cases hrule : s.config.wtMode1
    · exact .inr (by simp [dest, hrule])
    · exact .inl (by simp [dest, hrule])

/-- A result address is the raw value or an address a little past the pc. -/
theorem State.Inv.isWord_dest (hinv : s.Inv) (hd : s.decodeNext = .ok i) {k : Nat} (hk : k ≤ 3) {d : Target}
    (hraw : d.raw ∈ i.raws) : s.config.isWord (dest s k d) = true := by
  obtain h | h := dest_cases s k d
  · exact h ▸ hinv.isWord_raw hd hraw
  · have hnear := hinv.isWord_near_pc (inb_pc_of_decodeNext hd) (k := 1 + k) (by omega)
    rwa [h, operandCell, add_assoc, ← Nat.cast_one, ← Nat.cast_add]

theorem State.Inv.isWord_info_of_src (hinv : s.Inv) (hd : s.decodeNext = .ok i) {o : Operand} {e : Error}
    (hraw : o.raw ∈ i.raws) (h : src s o = .error e) : s.config.isWord e.info = true := by
  obtain ⟨-, -, rfl⟩ := src_eq_error.1 h
  exact hinv.isWord_raw hd hraw

/-- The payload of an instruction's fault is a raw value, a result address, or 0. -/
theorem State.Inv.isWord_info_of_raises (hinv : s.Inv) (hd : s.decodeNext = .ok i) {e : Error} (h : Raises i s e) :
    s.config.isWord e.info = true := by
  cases i with
  | add a b d | mul a b d =>
    obtain h | ⟨_, -, h⟩ | ⟨_, _, -, -, h⟩ | ⟨_, _, _, -, -, -, -, rfl⟩ := h
    · exact hinv.isWord_info_of_src hd (by simp [Instr.raws]) h
    · exact hinv.isWord_info_of_src hd (by simp [Instr.raws]) h
    · obtain ⟨-, -, rfl⟩ := narrow_eq_error.1 h
      exact hinv.isWord_zero
    · exact hinv.isWord_dest hd (by decide) (by simp [Instr.raws])
  | lt a b d | eq a b d =>
    obtain h | ⟨_, -, h⟩ | ⟨_, _, -, -, -, rfl⟩ := h
    · exact hinv.isWord_info_of_src hd (by simp [Instr.raws]) h
    · exact hinv.isWord_info_of_src hd (by simp [Instr.raws]) h
    · exact hinv.isWord_dest hd (by decide) (by simp [Instr.raws])
  | inp d =>
    obtain ⟨-, rfl⟩ | ⟨-, -, rfl⟩ := h
    · exact hinv.isWord_zero
    · exact hinv.isWord_dest hd (by decide) (by simp [Instr.raws])
  | out a => exact hinv.isWord_info_of_src hd (by simp [Instr.raws]) h
  | jt a b | jf a b =>
    obtain h | ⟨_, -, h⟩ := h
    · exact hinv.isWord_info_of_src hd (by simp [Instr.raws]) h
    · exact hinv.isWord_info_of_src hd (by simp [Instr.raws]) h
  | hlt => cases h

/-- The payload of a failed decode is the pc, the header, or the address of an operand cell. -/
theorem State.Inv.isWord_info_of_decodeNext (hinv : s.Inv) {d : DecodeError} (h : s.decodeNext = .error d) :
    s.config.isWord (faultOfDecode d).info = true := by
  obtain ⟨-, rfl⟩ | ⟨v, hread, hheader⟩ | ⟨v, hd, j, hread, -, ⟨hj, -⟩, rfl⟩ := decode_eq_error.1 h
  · exact hinv.pcWord
  · rw [faultOfDecode_of_decodeHeader hheader]
    exact hinv.isWord_of_read hread
  · have hcount := hd.kind.operandCount_le
    have hnear := hinv.isWord_near_pc (Memory.inb_of_read hread) (k := 1 + j) (by omega)
    show s.config.isWord (s.pc + 1 + (j : Int)) = true
    rwa [add_assoc, ← Nat.cast_one, ← Nat.cast_add]

/-- The payload of every fault of a step is a word (10_state.md R26). -/
theorem State.Inv.isWord_info_of_stepRaises (hinv : s.Inv) {e : Error} (h : StepRaises s e) :
    s.config.isWord e.info = true := by
  obtain ⟨d, hd, rfl⟩ | ⟨i, hd, hraise⟩ := h
  · exact hinv.isWord_info_of_decodeNext hd
  · exact hinv.isWord_info_of_raises hd hraise

/-! ### The step -/

/-- A fault of a step keeps the invariant: it changes the status alone. -/
theorem State.Inv.raise (hinv : s.Inv) {e : Error} (h : StepRaises s e) : (s.raise e).Inv :=
  { hinv with
    infoWord := hinv.isWord_info_of_stepRaises h
    noFault := fun hn => absurd rfl hn
    faultKind := fun _ => by cases e <;> exact nofun
    plainInfo := by cases e <;> simp [Error.kind, Error.info]
    overflowOnly := fun hk => by
      obtain rfl := Error.kind_eq_overflow.1 hk
      obtain ⟨hover, hxlen, -⟩ := stepRaises_overflow h
      exact ⟨hover, hxlen⟩ }

/-- A completed instruction keeps the invariant. -/
theorem State.Inv.of_effect (hinv : s.Inv) (h : step s = .next t) (hd : s.decodeNext = .ok i) (heff : Effect i s t) :
    t.Inv := by
  obtain ⟨hconfig, hlen, -⟩ := frame_of_effect heff
  obtain ⟨hkind, hinfo⟩ := noFault_of_effect hinv h heff
  have hmem : t.mem.wf ∧ t.mem.holdsWords s.config := by
    obtain hm | ⟨a, r, hinb, hr, hm⟩ := hinv.mem_of_effect heff
    · exact hm ▸ ⟨hinv.memForm, hinv.memWords⟩
    · exact hm ▸ ⟨Memory.wf_write r hinb hinv.memForm, Memory.holdsWords_write hr hinv.memWords⟩
  exact {
    legal := hconfig ▸ hinv.legal
    memForm := hmem.1
    memLength := by rw [hconfig, hlen]; exact hinv.memLength
    memWords := hconfig ▸ hmem.2
    pcWord := hconfig ▸ hinv.isWord_pc_of_effect hd heff
    inWords := State.InputsAreWords.of_step hinv.inWords h
    outWords := hconfig ▸ hinv.outWords_of_effect hd heff
    infoWord := by rw [hconfig, hinfo]; exact hinv.isWord_zero
    noFault := fun _ => ⟨hkind, hinfo⟩
    faultKind := fun hf => absurd hf (not_faulted_of_effect (running_of_step h) heff)
    plainInfo := fun _ => hinfo
    overflowOnly := fun hk => nomatch hkind.symm.trans hk }

end Words

/-- Settles O45: a step completes the decoded instruction or takes a fault, and either keeps the invariant. -/
theorem stepKeepsInvariant : Obligations.StepKeepsInvariant := by
  intro s t hinv h
  obtain ⟨-, ⟨d, hd, rfl⟩ | ⟨i, hd, heff | ⟨e, hraise, rfl⟩⟩⟩ := step_eq_next.1 h
  · exact hinv.raise (.inl ⟨d, hd, rfl⟩)
  · exact hinv.of_effect h hd heff
  · exact hinv.raise (.inr ⟨i, hd, hraise⟩)

/-! ### The host's operations -/

theorem State.Inv.of_reaches {s t : State} (hinv : s.Inv) (h : Reaches s t) : t.Inv := h.keeps stepKeepsInvariant hinv

theorem State.Inv.appendInputs {s : State} {l : List Int} (hinv : s.Inv) (hl : ∀ v ∈ l, s.config.isWord v = true) :
    (s.appendInputs l).Inv :=
  { hinv with inWords := State.InputsAreWords.appendInputs hinv.inWords hl }

theorem State.Inv.drainOutput {s : State} (hinv : s.Inv) : s.drainOutput.2.Inv := { hinv with outWords := nofun }

/-- Settles O56: a run call makes steps, after it has appended words; a refused one and a drain add nothing. -/
theorem hostOperationsKeepInvariant : Obligations.HostOperationsKeepInvariant := by
  intro s t hinv
  refine ⟨fun n inputs r h => ?_, fun dump n r h => hinv.of_reaches (reaches_of_runToCompletion h), rfl, rfl,
    hinv.drainOutput⟩
  obtain ⟨hwords, hrun⟩ | ⟨-, rfl⟩ := runUntilOutputOrHalt_cases h
  · exact (hinv.appendInputs hwords).of_reaches (reaches_of_runUntilOutput hrun)
  · exact hinv

end Sys2Proof.Machine
end

section
/-!
SUPPORT. The finite machine and the unbounded one (92_eei_decisions.md, Notes on D1 and D3): memory, sources, result
addresses and the decoder do not look at XLEN, so the two differ in the narrowing of a result alone.
-/

namespace Sys2Proof.Machine

/-- With XLEN = INF every exact result is the word stored. -/
theorem narrow_unbounded (s : State) (v : Int) : narrow s.unbounded.config v = .ok v :=
  narrow_of_isWord (Config.isWord_of_unbounded rfl v)

/-- Under OVERFLOW = FAULT a result that is narrowed at all is exact. -/
theorem eq_of_narrow {c : Config} {v r : Int} (hover : c.overflow = .fault) (h : narrow c v = .ok r) : r = v := by
  obtain ⟨-, rfl⟩ | ⟨-, hwrap, -⟩ := narrow_eq_ok.1 h
  · rfl
  · cases hover.symm.trans hwrap

/-- Under OVERFLOW = FAULT what completes on the finite machine completes alike on the unbounded one. -/
theorem effect_unbounded {i : Instr} {s t : State} (hover : s.config.overflow = .fault) (h : Effect i s t) :
    Effect i s.unbounded t.unbounded := by
  cases i with
  | add a b d | mul a b d =>
    obtain ⟨x, y, r, hx, hy, hr, hinb, rfl⟩ := h
    obtain rfl := eq_of_narrow hover hr
    exact ⟨x, y, _, hx, hy, narrow_unbounded s _, hinb, rfl⟩
  | lt a b d | eq a b d =>
    obtain ⟨x, y, hx, hy, hinb, rfl⟩ := h
    exact ⟨x, y, hx, hy, hinb, rfl⟩
  | inp d =>
    obtain ⟨v, rest, hq, hinb, rfl⟩ := h
    exact ⟨v, rest, hq, hinb, rfl⟩
  | out a =>
    obtain ⟨v, hv, rfl⟩ := h
    exact ⟨v, hv, rfl⟩
  | jt a b | jf a b =>
    obtain ⟨c, p, hc, hp, rfl⟩ := h
    exact ⟨c, p, hc, hp, apply_ite State.unbounded _ _ _⟩
  | hlt =>
    cases h
    rfl

/-- Every fault but Overflow is raised alike on the unbounded machine. -/
theorem raises_unbounded {i : Instr} {s : State} {e : Error} (he : e ≠ .overflow) (h : Raises i s e) :
    Raises i s.unbounded e := by
  cases i with
  | add a b d | mul a b d =>
    obtain ha | hb | ⟨x, y, -, -, hr⟩ | ⟨x, y, r, hx, hy, -, hinb, ht⟩ := h
    · exact .inl ha
    · exact .inr (.inl hb)
    · exact absurd (narrow_eq_error.1 hr).2.2 he
    · exact .inr (.inr (.inr ⟨x, y, _, hx, hy, narrow_unbounded s _, hinb, ht⟩))
  | lt | eq | inp | out | jt | jf | hlt => exact h

/-- Settles O53: the same decode, and then the same effect or the same fault. -/
theorem finiteStepRefinesUnboundedStep : Obligations.FiniteStepRefinesUnboundedStep := by
  intro s t hover h hk
  obtain ⟨hrun, ⟨d, hd, rfl⟩ | ⟨i, hd, hi⟩⟩ := step_eq_next.1 h
  · exact step_eq_next.2 ⟨hrun, .inl ⟨d, hd, rfl⟩⟩
  · refine step_eq_next.2 ⟨hrun, .inr ⟨i, hd, ?_⟩⟩
    obtain heff | ⟨e, hraise, rfl⟩ := hi
    · exact .inl (effect_unbounded hover heff)
    · have he : e ≠ .overflow := fun heq => hk (Error.kind_eq_overflow.2 heq)
      exact .inr ⟨e, raises_unbounded he hraise, rfl⟩

end Sys2Proof.Machine
end

section
/-!
SUPPORT. The alternative OVERFLOW = WRAP of ADD and MUL, and the order of their sources (41_arithmetic.md section 1).
-/

namespace Sys2Proof

/-- The reduction of OVERFLOW = WRAP changes a value by a multiple of 2^XLEN. -/
theorem Config.dvd_sub_wrapWord {c : Config} {width : Nat} (hx : c.xlen = some width) (v : Int) :
    (2 ^ width : Int) ∣ v - c.wrapWord v := by
  have hdvd : ((2 ^ width : Nat) : Int) ∣ v - v.bmod (2 ^ width) := Int.dvd_self_sub_bmod
  simpa [Config.wrapWord, hx] using hdvd

end Sys2Proof

namespace Sys2Proof.Machine

/-- Under OVERFLOW = WRAP narrowing answers always: a word congruent to the exact result modulo 2^XLEN. -/
theorem exists_narrow_of_wrap {c : Config} {width : Nat} (hover : c.overflow = .wrap) (hlegal : c.legal = true)
    (hx : c.xlen = some width) (v : Int) :
    ∃ r, narrow c v = .ok r ∧ c.isWord r = true ∧ (2 ^ width : Int) ∣ v - r := by
  cases hword : c.isWord v with
  | true => exact ⟨v, narrow_of_isWord hword, hword, by simp⟩
  | false =>
    exact ⟨c.wrapWord v, narrow_eq_ok.2 (.inr ⟨hword, hover, rfl⟩), Config.isWord_wrapWord hlegal v,
      Config.dvd_sub_wrapWord hx v⟩

/-- Settles O21: the common part of the F3 kinds with a narrowing that always answers. -/
theorem wrappedArithmetic : Obligations.WrappedArithmetic := by
  intro mk op hmk a b d s width x y hover hlegal hx ha hb
  have hexec : exec (mk a b d) s = s.commit (binaryResult (fun x y => narrow s.config (op x y)) a b d s) := by
    obtain ⟨rfl, rfl⟩ | ⟨rfl, rfl⟩ := hmk <;> rfl
  obtain ⟨r, hr, hword, hdvd⟩ := exists_narrow_of_wrap hover hlegal hx (op x y)
  refine ⟨fun hin => ?_, fun hout => ?_⟩
  · obtain ⟨t, hnext, hrest⟩ := binary_completes hexec ha hb hr hin
    exact ⟨t, r, hnext, hword, hdvd, hrest⟩
  · exact binary_faults hexec (binaryResult_eq_error.2 (.inr (.inr (.inr ⟨x, y, r, ha, hb, hr, hout, rfl⟩))))

/-- The effect of ADD or MUL is the same with its sources exchanged. -/
theorem effect_add_comm {a b : Operand} {d : Target} {s t : State} (h : Effect (.add a b d) s t) :
    Effect (.add b a d) s t := by
  obtain ⟨x, y, r, hx, hy, hr, hrest⟩ := h
  exact ⟨y, x, r, hy, hx, add_comm x y ▸ hr, hrest⟩

theorem effect_mul_comm {a b : Operand} {d : Target} {s t : State} (h : Effect (.mul a b d) s t) :
    Effect (.mul b a d) s t := by
  obtain ⟨x, y, r, hx, hy, hr, hrest⟩ := h
  exact ⟨y, x, r, hy, hx, mul_comm x y ▸ hr, hrest⟩

/-- An instruction that leads to a state that is not FAULTED completed. -/
theorem exec_eq_next_of_not_faulted {i : Instr} {s t : State} (ht : t.runState ≠ .faulted) :
    exec i s = .next t ↔ Effect i s t := by
  refine ⟨fun h => ?_, exec_of_effect⟩
  obtain heff | ⟨e, -, rfl⟩ := exec_eq_next.1 h
  · exact heff
  · exact absurd rfl ht

/-- Settles O22: a completion is an effect, and the effects are symmetric. -/
theorem arithmeticCommutes : Obligations.ArithmeticCommutes := by
  intro a b d s t ht
  simp only [exec_eq_next_of_not_faulted ht]
  exact ⟨⟨effect_add_comm, effect_add_comm⟩, ⟨effect_mul_comm, effect_mul_comm⟩⟩

end Sys2Proof.Machine
end

section
/-!
SUPPORT. The comparisons, IN and the jumps whole (44_compare.md, 42_io.md section 1, 43_jumps.md): encoding, completion,
and the faults in their order.
-/

namespace Sys2Proof.Machine

theorem truthWord_decide (p : Prop) [Decidable p] :
    (p → truthWord (decide p) = 1) ∧ (¬p → truthWord (decide p) = 0) :=
  ⟨fun h => by simp [truthWord, h], fun h => by simp [truthWord, h]⟩

/-- Settles O24: both instructions are the common part of the F3 kinds with an operation that never fails. -/
theorem comparisonInstructions : Obligations.ComparisonInstructions := by
  intro mk holds code hmk a b d s
  obtain ⟨cmp, hexec, hcmp⟩ : ∃ cmp : Int → Int → Int,
      exec (mk a b d) s = s.commit (binaryResult (fun x y => .ok (cmp x y)) a b d s) ∧
        ∀ x y, (holds x y → cmp x y = 1) ∧ (¬holds x y → cmp x y = 0) := by
    obtain ⟨rfl, rfl, -⟩ | ⟨rfl, rfl, -⟩ := hmk
    · exact ⟨lessThan, rfl, fun x y => truthWord_decide (x < y)⟩
    · exact ⟨equals, rfl, fun x y => truthWord_decide (x = y)⟩
  refine ⟨?_, fun x y ha hb hin => ?_, fun hpos hout => ?_, fun x ha hpos hout => ?_, fun x y ha hb hout => ?_⟩
  · obtain ⟨rfl, -, rfl⟩ | ⟨rfl, -, rfl⟩ := hmk <;>
      simp [encode, Instr.header, Instr.raws, headerWord_eq, Kind.opcode]
  · obtain ⟨t, hnext, hrest⟩ := binary_completes hexec ha hb rfl hin
    exact ⟨t, cmp x y, hnext, (hcmp x y).1, (hcmp x y).2, hrest⟩
  · exact binary_faults hexec (binaryResult_eq_error.2 (.inl (src_of_not_inb hpos hout)))
  · exact binary_faults hexec (binaryResult_eq_error.2 (.inr (.inl ⟨x, ha, src_of_not_inb hpos hout⟩)))
  · exact binary_faults hexec (binaryResult_eq_error.2 (.inr (.inr (.inr ⟨x, y, _, ha, hb, rfl, hout, rfl⟩))))

/-- Settles O26: the completion is IN's effect, the faults are those IN raises, the empty queue first. -/
theorem inputInstruction : Obligations.InputInstruction := by
  intro d s
  refine ⟨?_, fun v rest hq hin => ?_, fun hq => ?_, fun hq hout => ?_⟩
  · simp [encode, Instr.header, Instr.raws, headerWord_eq, Kind.opcode]
  · have heff : Effect (.inp d) s ((s.store (dest s 0 d) v).popInput.advance 2) := ⟨v, rest, hq, hin, rfl⟩
    exact ⟨_, exec_of_effect heff, storedAt_of_write hin rfl, rfl, by simp [hq], rfl,
      sameStatus_of_effect heff nofun⟩
  · exact faults_of_raises (i := .inp d) (.inl ⟨hq, rfl⟩)
  · exact faults_of_raises (i := .inp d) (.inr ⟨hq, hout, rfl⟩)

/-! ### The jumps -/

/-- An error that exec commits is the instruction's fault, with no other effect (40_execution_cycle.md R85). -/
theorem faults_of_commit_error {i : Instr} {s : State} {e : Error} (h : exec i s = s.commit (.error e)) : Faults i s e :=
  ⟨s.raise e, h, faultedFrom_raise s e⟩

/-- With both operands read, the pc takes operand 1 or moves past three cells, and nothing else changes. -/
theorem jump_completes {i : Instr} {taken : Int → Bool} {a b : Operand} {s : State}
    (hexec : exec i s = s.commit (conditionalJump taken a b s)) {c p : Int} (ha : src s a = .ok c) (hb : src s b = .ok p) :
    ∃ t, exec i s = .next t ∧ (taken c = true → t.pc = p) ∧ (¬taken c = true → t.pc = s.pc + 3) ∧ t.mem = s.mem ∧
      t.inQ = s.inQ ∧ t.outQ = s.outQ ∧ SameStatus s t := by
  have hok : conditionalJump taken a b s = .ok (if taken c then s.setPc p else s.advance 3) :=
    conditionalJump_eq_ok.2 ⟨c, p, ha, hb, rfl⟩
  refine ⟨_, by rw [hexec, hok, State.commit_ok], ?_⟩
  cases htaken : taken c with
  | true => exact ⟨fun _ => rfl, fun hn => absurd rfl hn, rfl, rfl, rfl, rfl, rfl, rfl, rfl⟩
  | false => exact ⟨nofun, fun _ => rfl, rfl, rfl, rfl, rfl, rfl, rfl, rfl⟩

/-- Settles O29: both instructions are the common part of the jumps, with the zero test one way or the other. -/
theorem jumpInstructions : Obligations.JumpInstructions := by
  intro mk taken code hmk a b s
  obtain ⟨test, hexec, htest⟩ : ∃ test : Int → Bool,
      exec (mk a b) s = s.commit (conditionalJump test a b s) ∧ ∀ c, test c = true ↔ taken c := by
    obtain ⟨rfl, rfl, -⟩ | ⟨rfl, rfl, -⟩ := hmk
    · exact ⟨fun c => !isZero c, rfl, fun c => by simp [isZero]⟩
    · exact ⟨isZero, rfl, fun c => by simp [isZero]⟩
  refine ⟨?_, fun c p ha hb => ?_, fun hpos hout => ?_, fun c ha hpos hout => ?_⟩
  · obtain ⟨rfl, -, rfl⟩ | ⟨rfl, -, rfl⟩ := hmk <;>
      simp [encode, Instr.header, Instr.raws, headerWord_eq, Kind.opcode]
  · have hjump := jump_completes hexec ha hb
    rwa [htest c] at hjump
  · have herr := conditionalJump_eq_error (taken := test) (b := b).2 (.inl (src_of_not_inb hpos hout))
    exact faults_of_commit_error (herr ▸ hexec)
  · have herr := conditionalJump_eq_error (taken := test).2 (.inr ⟨c, ha, src_of_not_inb hpos hout⟩)
    exact faults_of_commit_error (herr ▸ hexec)

end Sys2Proof.Machine
end

section
/-!
SUPPORT. Frames (40_execution_cycle.md sections 3 to 5): what each group of instructions leaves unchanged, and what every
step does.
-/

namespace Sys2Proof.Machine

/-- What every instruction leaves unchanged, whether it completes or takes a fault: the parameters, N, and every cell but
the one at its result address. -/
theorem frame_of_exec {i : Instr} {s t : State} (h : exec i s = .next t) :
    t.config = s.config ∧ t.mem.len = s.mem.len ∧ ∀ c, resultAddress s i ≠ some c → t.mem.read c = s.mem.read c := by
  obtain heff | ⟨e, -, rfl⟩ := exec_eq_next.1 h
  · obtain ⟨hconfig, hlen, -, -, hcells⟩ := frame_of_effect heff
    exact ⟨hconfig, hlen, hcells⟩
  · exact ⟨rfl, rfl, fun _ _ => rfl⟩

/-- An instruction that is neither IN nor OUT leaves the channel. -/
theorem channel_of_exec {i : Instr} {s t : State} (h : exec i s = .next t) (hin : ∀ d, i ≠ .inp d)
    (hout : ∀ a, i ≠ .out a) : t.inQ = s.inQ ∧ t.outQ = s.outQ := by
  obtain heff | ⟨e, -, rfl⟩ := exec_eq_next.1 h
  · exact ⟨inQ_of_effect heff hin, outQ_of_effect heff hout⟩
  · exact ⟨rfl, rfl⟩

/-- An instruction other than halt leaves the status, or takes a fault with no other effect. -/
theorem status_of_exec {i : Instr} {s t : State} (h : exec i s = .next t) (hhlt : i ≠ .hlt) :
    SameStatus s t ∨ ∃ e, FaultedFrom s t e := by
  obtain heff | ⟨e, -, rfl⟩ := exec_eq_next.1 h
  · exact .inl (sameStatus_of_effect heff hhlt)
  · exact .inr ⟨e, faultedFrom_raise s e⟩

/-- Settles O34: the four kinds write to operand 2's result address and use no channel. -/
theorem arithmeticAndComparisonFrame : Obligations.ArithmeticAndComparisonFrame := by
  intro i a b d s t hi h
  obtain ⟨hconfig, hlen, hcells⟩ := frame_of_exec h
  have hkind : resultAddress s i = some (dest s 2 d) ∧ (∀ d, i ≠ .inp d) ∧ (∀ a, i ≠ .out a) ∧ i ≠ .hlt := by
    obtain rfl | rfl | rfl | rfl := hi <;> exact ⟨rfl, nofun, nofun, nofun⟩
  obtain ⟨haddr, hin, hout, hhlt⟩ := hkind
  obtain ⟨hinQ, houtQ⟩ := channel_of_exec h hin hout
  refine ⟨hconfig, hinQ, houtQ, hlen, fun c hc => hcells c fun hsome => hc ?_, status_of_exec h hhlt⟩
  exact (Option.some.inj (haddr.symm.trans hsome)).symm

/-- Settles O35: IN writes to operand 0's result address, and where it completes it removes the front. -/
theorem inputFrame : Obligations.InputFrame := by
  intro d s t h
  obtain ⟨hconfig, hlen, hcells⟩ := frame_of_exec h
  have hread : ∀ c, c ≠ dest s 0 d → t.mem.read c = s.mem.read c :=
    fun c hc => hcells c fun hsome => hc (Option.some.inj hsome).symm
  obtain ⟨v, rest, -, -, rfl⟩ | ⟨e, -, rfl⟩ := exec_eq_next.1 h
  · exact ⟨hconfig, rfl, hlen, hread, .inl ⟨⟨rfl, rfl, rfl, rfl⟩, rfl⟩⟩
  · exact ⟨hconfig, rfl, hlen, hread, .inr ⟨e, faultedFrom_raise s e⟩⟩

/-- A jump writes the pc alone, or takes a fault. -/
theorem mem_of_exec_jump {a b : Operand} {s t : State}
    (h : exec (.jt a b) s = .next t ∨ exec (.jf a b) s = .next t) : t.mem = s.mem := by
  obtain h | h := h
  all_goals
    obtain ⟨c, p, -, -, rfl⟩ | ⟨e, -, rfl⟩ := exec_eq_next.1 h
    · split <;> rfl
    · rfl

/-- Settles O36: none of the four stores; OUT appends one word, the jumps write the pc, HLT the run state. -/
theorem nonStoringFrame : Obligations.NonStoringFrame := by
  refine fun i s t h => ⟨fun a ha => ?_, fun a b hab => ?_, fun hi => ?_⟩
  · subst ha
    obtain ⟨v, -, rfl⟩ | ⟨e, -, rfl⟩ := exec_eq_next.1 h
    · exact ⟨rfl, rfl, rfl, .inl ⟨⟨rfl, rfl, rfl, rfl⟩, List.dropLast_concat⟩⟩
    · exact ⟨rfl, rfl, rfl, .inr ⟨e, faultedFrom_raise s e⟩⟩
  · have hmem : t.mem = s.mem := mem_of_exec_jump (hab.imp (· ▸ h) (· ▸ h))
    have hkind : (∀ d, i ≠ .inp d) ∧ (∀ a, i ≠ .out a) ∧ i ≠ .hlt := by
      obtain rfl | rfl := hab <;> exact ⟨nofun, nofun, nofun⟩
    obtain ⟨hin, hout, hhlt⟩ := hkind
    obtain ⟨hinQ, houtQ⟩ := channel_of_exec h hin hout
    exact ⟨hmem, hinQ, houtQ, (frame_of_exec h).1, status_of_exec h hhlt⟩
  · subst hi
    cases h
    exact ⟨rfl, rfl, rfl, rfl, rfl, rfl, rfl⟩

/-- No step changes N (10_state.md R22). -/
theorem step_memLen {s t : State} (h : step s = .next t) : t.mem.len = s.mem.len := by
  obtain ⟨i, heff⟩ | ⟨e, -, rfl⟩ := effect_or_raise_of_step h
  · exact (frame_of_effect heff).2.1
  · rfl

/-- Settles O37: every step keeps both, so whatever is reached has them. -/
theorem parametersAndLengthAreFixed : Obligations.ParametersAndLengthAreFixed := fun s _ h =>
  h.keeps (P := fun u => u.config = s.config ∧ u.mem.len = s.mem.len)
    (fun _ _ ⟨hconfig, hlen⟩ hs => ⟨(step_config hs).trans hconfig, (step_memLen hs).trans hlen⟩) ⟨rfl, rfl⟩

end Sys2Proof.Machine
end

section
/-!
SUPPORT. What a step does not look at (70_reset_and_hazards.md section 3, 10_state.md section 7): the output sequence, and
inputs pending behind the front.
-/

namespace Sys2Proof.Machine

/-! ### The output sequence -/

/-- The effect of an instruction that is no OUT is the same whatever the output sequence holds. -/
theorem effect_with_outQ_of_not_out {i : Instr} {s t : State} (h : Effect i s t) (hi : ∀ a, i ≠ .out a) (q : List Int) :
    Effect i { s with outQ := q } { t with outQ := q } := by
  cases i with
  | add a b d | mul a b d =>
    obtain ⟨x, y, r, hx, hy, hr, hinb, rfl⟩ := h
    exact ⟨x, y, r, hx, hy, hr, hinb, rfl⟩
  | lt a b d | eq a b d =>
    obtain ⟨x, y, hx, hy, hinb, rfl⟩ := h
    exact ⟨x, y, hx, hy, hinb, rfl⟩
  | inp d =>
    obtain ⟨v, rest, hq, hinb, rfl⟩ := h
    exact ⟨v, rest, hq, hinb, rfl⟩
  | out a => exact absurd rfl (hi a)
  | jt a b | jf a b =>
    obtain ⟨c, p, hc, hp, rfl⟩ := h
    exact ⟨c, p, hc, hp, apply_ite (fun u : State => { u with outQ := q }) _ _ _⟩
  | hlt =>
    cases h
    rfl

/-- What a completed instruction appends to the output sequence does not depend on what it held. -/
theorem effect_with_outQ {i : Instr} {s t : State} (h : Effect i s t) (q : List Int) :
    Effect i { s with outQ := q } { t with outQ := q ++ t.outQ.drop s.outQ.length } := by
  by_cases hi : ∃ a, i = .out a
  · obtain ⟨a, rfl⟩ := hi
    obtain ⟨v, hv, rfl⟩ := h
    exact ⟨v, hv, by simp [State.appendOutput, State.advance, State.setPc]⟩
  · have hout : ∀ a, i ≠ .out a := fun a ha => hi ⟨a, ha⟩
    have hq : q ++ t.outQ.drop s.outQ.length = q := by simp [outQ_of_effect h hout]
    rw [hq]
    exact effect_with_outQ_of_not_out h hout q

/-- The conditions of a fault speak of memory, pc, inputs and parameters only. -/
theorem raises_with_outQ {i : Instr} {s : State} {e : Error} (h : Raises i s e) (q : List Int) :
    Raises i { s with outQ := q } e := by
  cases i <;> exact h

theorem raise_with_outQ (s : State) (e : Error) (q : List Int) :
    { s.raise e with outQ := q ++ (s.raise e).outQ.drop s.outQ.length } = State.raise { s with outQ := q } e := by
  simp [State.raise]

/-- Settles O49: the decoder reads memory alone, and neither effects nor faults read the output sequence. -/
theorem outputSequenceIsUnobservable : Obligations.OutputSequenceIsUnobservable := by
  intro s t q h
  obtain ⟨hrun, ⟨d, hd, rfl⟩ | ⟨i, hd, hi⟩⟩ := step_eq_next.1 h
  · exact step_eq_next.2 ⟨hrun, .inl ⟨d, hd, raise_with_outQ s (faultOfDecode d) q⟩⟩
  · refine step_eq_next.2 ⟨hrun, .inr ⟨i, hd, ?_⟩⟩
    obtain heff | ⟨e, hraise, rfl⟩ := hi
    · exact .inl (effect_with_outQ heff q)
    · exact .inr ⟨e, raises_with_outQ hraise q, raise_with_outQ s e q⟩

/-! ### Later inputs -/

/-- Taking the front of a queue that is not empty and appending behind it can be done in either order. -/
theorem appendInputs_popInput {s : State} {l : List Int} (hq : s.inQ ≠ []) :
    s.popInput.appendInputs l = (s.appendInputs l).popInput := by
  simp [State.appendInputs, State.popInput, List.tail_append_of_ne_nil hq]

/-- An IN that finds its queue not empty does the same with more inputs behind. -/
theorem step_appendInputs_of_inp {s t : State} {d : Target} (h : step s = .next t) (hd : s.decodeNext = .ok (.inp d))
    (hk : t.errKind ≠ .inputStarved) (l : List Int) : step (s.appendInputs l) = .next (t.appendInputs l) := by
  obtain ⟨hrun, hi⟩ := step_of_decodeNext h hd
  refine step_eq_next.2 ⟨hrun, .inr ⟨.inp d, hd, ?_⟩⟩
  obtain ⟨v, rest, hq, hinb, rfl⟩ | ⟨e, ⟨-, rfl⟩ | ⟨hq, hinb, rfl⟩, rfl⟩ := hi
  · have hpop := appendInputs_popInput (s := s.store (dest s 0 d) v) (l := l) (by simp [hq])
    exact .inl ⟨v, rest ++ l, by simp [hq], hinb, congrArg (State.advance · 2) hpop⟩
  · exact absurd rfl hk
  · exact .inr ⟨_, .inr ⟨by simp [hq], hinb, rfl⟩, rfl⟩

/-- Settles O50: a step that is no IN does not look at the queue, and an IN looks at its front. -/
theorem laterInputsDoNotChangeAStep : Obligations.LaterInputsDoNotChangeAStep := by
  intro s t l h hk
  by_cases hinp : ∃ d, s.decodeNext = .ok (.inp d)
  · obtain ⟨d, hd⟩ := hinp
    exact step_appendInputs_of_inp h hd hk l
  · have hinQ : t.inQ = s.inQ := step_inQ_of_not_inp h hinp
    simpa only [State.appendInputs, hinQ] using step_with_inQ h hinp (s.inQ ++ l)

end Sys2Proof.Machine
end

section
/-!
SUPPORT. Run calls on terminal instances and with illegal inputs (70_reset_and_hazards.md section 3), and several instances
(60_exceptions.md section 9, 20_memory.md section 9).
-/

namespace Sys2Proof.Machine

/-- Settles O47: a terminal instance answers a run call at once. -/
theorem runCallsOnTerminalInstances : Obligations.RunCallsOnTerminalInstances := by
  intro n dump inputs s hwords
  rw [runUntilOutputOrHalt_of_words hwords]
  refine ⟨fun hhalt => ?_, fun hfault => ?_⟩
  · exact ⟨runToCompletion_of_completionResult (completionResult_eq_some.2 (.inl ⟨hhalt, rfl⟩)) n,
      runUntilOutput_of_pauseResult (by simp [pauseResult, hhalt]) n⟩
  · exact ⟨runToCompletion_of_completionResult (completionResult_eq_some.2 (.inr ⟨hfault, rfl⟩)) n,
      runUntilOutput_of_pauseResult (by simp [pauseResult, hfault]) n⟩

/-- Settles O54: it is the check every call makes first. -/
theorem illegalInputsAreRefused : Obligations.IllegalInputsAreRefused :=
  fun _ _ _ => runUntilOutputOrHalt_of_nonword

/-! ### Several instances -/

/-- A step of instance `j` replaces its entry by the state that instance steps to. -/
theorem stepInstance_eq_some {net net' : List State} {j : Nat} :
    stepInstance net j = some net' ↔ ∃ s t, net[j]? = some s ∧ step s = .next t ∧ net' = net.set j t := by
  unfold stepInstance
  cases hj : net[j]? with
  | none => simp
  | some s => cases hs : step s <;> simp [hs, eq_comm]

/-- Settles O51: a step replaces one entry, and two entries can be replaced in either order. -/
theorem instancesShareNothing : Obligations.InstancesShareNothing := by
  refine ⟨fun net net' j h => ?_, fun net n1 n2 j k hjk hj hk => ?_⟩
  · obtain ⟨s, t, -, -, rfl⟩ := stepInstance_eq_some.1 h
    exact ⟨List.length_set, fun k hk => List.getElem?_set_ne hk.symm⟩
  · obtain ⟨s, t, hs, hst, rfl⟩ := stepInstance_eq_some.1 hj
    obtain ⟨u, v, hu, huv, rfl⟩ := stepInstance_eq_some.1 hk
    have hk' : (net.set j t)[k]? = some u := (List.getElem?_set_ne hjk).trans hu
    have hj' : (net.set k v)[j]? = some s := (List.getElem?_set_ne hjk.symm).trans hs
    exact ⟨(net.set j t).set k v, stepInstance_eq_some.2 ⟨u, v, hk', huv, rfl⟩,
      stepInstance_eq_some.2 ⟨s, t, hj', hst, List.set_comm _ _ hjk⟩⟩

/-- Settles O52: the two cases of the ring's loop. -/
theorem feedbackPassesOutputsAround : Obligations.FeedbackPassesOutputsAround := fun _ _ _ _ _ _ _ hs =>
  ⟨fun _ hcall => by simp [feedback, hs, hcall], fun _ _ _ hcall => by simp [feedback, hs, hcall]⟩

end Sys2Proof.Machine
end
